-- ==== Sys2Proof/Word.lean ====
section
/-! DEFINITION. The word types of PCEA-CORE: what the spec treats as bits. -/

namespace Sys2Proof

/-- An element of the State buffer or the Key buffer (10_state.md R20, R22). -/
abbrev Byte := BitVec 8

/-- An operand field `a` or `b`, and the data field of a response (30_encoding.md R60, R61). -/
abbrev Half := BitVec 16

/-- A command word `CW` (30_encoding.md R60). -/
abbrev CmdWord := BitVec 40

/-- A response word `RW` (30_encoding.md R61). -/
abbrev RespWord := BitVec 24

/-- A MoveCode (30_encoding.md R66). -/
abbrev Code := BitVec 4

end Sys2Proof
end

