-- ==== Sys2Proof/Config.lean ====
section
/-! DEFINITION. What an implementation fixes: the capacities (00_scope.md R6), the constants of the
algorithm (R7) and the host adapter's policy (46_host_codec.md R170). -/

namespace Sys2Proof

/-- The capacity parameters `NMAX` and `KMAX` (00_scope.md R6, log entry 2). -/
structure Capacity where
  nmax : Nat
  kmax : Nat
  deriving DecidableEq, Repr

/-- The constraint column of R6: `1 <= NMAX <= 65535`, `1 <= KMAX <= 32767`. -/
abbrev Capacity.wf (c : Capacity) : Prop :=
  (1 ≤ c.nmax ∧ c.nmax ≤ 65535) ∧ (1 ≤ c.kmax ∧ c.kmax ≤ 32767)

/-- The default column of R6. -/
def Capacity.standard : Capacity := { nmax := 65535, kmax := 32767 }

/-- Key-schedule multiplier (00_scope.md R7). -/
def Config.keyMultiplier : Nat := 31

/-- Mix multiplier (00_scope.md R7). -/
def Config.mixMultiplier : Byte := 17#8

/-- `inverse17` (44_diffusion_mixing.md R143). -/
def Config.inverse17 : Byte := 241#8

/-- `WIDE_CHAR_POLICY` of the host adapter (46_host_codec.md R170). -/
inductive WideCharPolicy where
  /-- The default: report the lossy character and issue no command. -/
  | refuse
  /-- Push the code point modulo 256. -/
  | truncate
  deriving DecidableEq, Repr

end Sys2Proof
end

