-- ==== Sys2Proof/Syntax.lean ====
section
/-! DEFINITION. The instructions: one constructor for each of the 43 rows of spec/opcode_table.json, the
27 commands of 30_encoding.md R62 and the 16 MoveCodes of R68. Operands have exactly the widths their
encodings admit, so every term is a well-formed instruction. -/

namespace Sys2Proof

/-- One constructor per row of spec/opcode_table.json. `mc0` to `mc15` are the MoveCodes, what the Move
Layer executes inside a macro command (20_memory.md R49, 30_encoding.md R69); their direction and round
index come from the sequencer, not from their 4 bits (log entry 6). -/
inductive Instr where
  /-- 40_buffer_access.md R81. -/
  | nop
  /-- Clear the State, R82. -/
  | clrs
  /-- Append one byte to the State, R83. -/
  | pushs (v : Byte)
  /-- Read one byte of the State, R84. -/
  | rds (index : Half)
  /-- Clear the Key, R85. -/
  | clrk
  /-- Append one byte to the Key, R86. -/
  | pushk (v : Byte)
  /-- R87. -/
  | getlen
  /-- R88. -/
  | getklen
  /-- R89. -/
  | geterr
  /-- R90. -/
  | clrerr
  /-- Rotate a range right, 41_permutation.md R105. -/
  | rotr (start stop : Half)
  /-- Rotate a range left, R106. -/
  | rotl (start stop : Half)
  /-- Exchange two positions, R107. -/
  | swap (pos1 pos2 : Half)
  /-- Rotate the whole State by SHIFT, R108. -/
  | rots
  /-- Undo the whole-State rotation, R109. -/
  | urots
  /-- Forward move, 42_move_layer.md R123. -/
  | move (round : Half) (code : Code)
  /-- Reverse move, R124. -/
  | rmove (round : Half) (code : Code)
  /-- Read one MoveCode of the key, 43_key_schedule.md R135. -/
  | getmc (j : Half)
  /-- Read one round-key byte, R136. -/
  | getrk (r i : Half)
  /-- Read the shift, R137. -/
  | getshift
  /-- XOR with a round key, 44_diffusion_mixing.md R144. -/
  | diff (round : Half)
  /-- R145. -/
  | mix
  /-- R146. -/
  | rmix
  /-- One forward round, 45_orchestrator.md R154. -/
  | rndf (round : Half)
  /-- One reverse round, R155. -/
  | rndr (round : Half)
  /-- Encrypt the State in place, R156. -/
  | enc (rounds : Half)
  /-- Decrypt the State in place, R157. -/
  | dec (rounds : Half)
  /-- MoveCode 0: [HALF, LEN) ccw (30_encoding.md R68). -/
  | mc0
  /-- MoveCode 1: [HALF, LEN) ccw, swap (30_encoding.md R68). -/
  | mc1
  /-- MoveCode 2: [HALF, LEN) cw (30_encoding.md R68). -/
  | mc2
  /-- MoveCode 3: [HALF, LEN) cw, swap (30_encoding.md R68). -/
  | mc3
  /-- MoveCode 4: [HALF, LEN) cw (30_encoding.md R68). -/
  | mc4
  /-- MoveCode 5: [HALF, LEN) cw, swap (30_encoding.md R68). -/
  | mc5
  /-- MoveCode 6: [HALF, LEN) ccw (30_encoding.md R68). -/
  | mc6
  /-- MoveCode 7: [HALF, LEN) ccw, swap (30_encoding.md R68). -/
  | mc7
  /-- MoveCode 8: [0, HALF) ccw (30_encoding.md R68). -/
  | mc8
  /-- MoveCode 9: [0, HALF) ccw, swap (30_encoding.md R68). -/
  | mc9
  /-- MoveCode 10: [0, HALF) cw (30_encoding.md R68). -/
  | mc10
  /-- MoveCode 11: [0, HALF) cw, swap (30_encoding.md R68). -/
  | mc11
  /-- MoveCode 12: [0, HALF) cw (30_encoding.md R68). -/
  | mc12
  /-- MoveCode 13: [0, HALF) cw, swap (30_encoding.md R68). -/
  | mc13
  /-- MoveCode 14: [0, HALF) ccw (30_encoding.md R68). -/
  | mc14
  /-- MoveCode 15: [0, HALF) ccw, swap (30_encoding.md R68). -/
  | mc15
  deriving DecidableEq, Repr

end Sys2Proof
end

