-- ==== Sys2Proof/Machine/State.lean ====
section
/-! DEFINITION. The state of PCEA-CORE as plain data (10_state.md), the ways a step can stop, and the
state after reset. -/

namespace Sys2Proof.Machine

/-- The error codes of 60_exceptions.md R181; "a model's error type has exactly six values" (93 U16). -/
inductive ErrCode where
  | ok
  | emptyState
  | emptyKey
  | range
  | overflow
  | illegal
  deriving DecidableEq, Repr

/-- A response `RW`: `err` and `data` (30_encoding.md R61). -/
structure Response where
  err : ErrCode
  data : Half
  deriving DecidableEq, Repr

/-- What the host does at the command port (20_memory.md R47, 70_reset_and_hazards.md R200; log entries
3 and 5). -/
inductive PortEvent where
  /-- A command word is presented and its command runs to completion in one step (R45). -/
  | command (cw : CmdWord)
  /-- A command word is presented and a macro command is followed one micro-operation a step
  (45_orchestrator.md R158, R159); any other command runs in one step. -/
  | sequenced (cw : CmdWord)
  /-- The host does nothing during one step. -/
  | quiet
  /-- The Reset event, "at any time, including while a command is running" (R200). -/
  | reset
  deriving DecidableEq, Repr

/-- The macro command the sequencer is running (30_encoding.md R71); the round count is "forgotten when
the command ends" (10_state.md R28). -/
inductive Macro where
  | rndf
  | rndr
  | enc (rounds : Nat)
  | dec (rounds : Nat)
  deriving DecidableEq, Repr

/-- The sequencer's phase: its next micro-operation (45_orchestrator.md R158, R159). -/
inductive Phase where
  /-- `ROT`, rotateState by SHIFT. -/
  | rot
  /-- `MOVE(r, MC[j])`. -/
  | move
  /-- `DIFF(r)` of a forward round. -/
  | diff
  /-- `MIX`. -/
  | mix
  /-- `RMIX`. -/
  | rmix
  /-- `DIFF(r)` of a reverse round. -/
  | rdiff
  /-- `RMOVE(r, MC[j])`. -/
  | rmove
  /-- `UNROT`, unrotateState by SHIFT. -/
  | unrot
  deriving DecidableEq, Repr

/-- The sequencer (10_state.md R26): idle between commands, else `(phase, r, j)`. -/
inductive Sequencer where
  | idle
  | running (m : Macro) (phase : Phase) (r j : Nat)
  deriving DecidableEq, Repr

/-- Why the machine stops. No run reaches either: R160 and R189 say that no micro-operation fails and
no input leaves the outcome open (log entry 7). -/
inductive Fault where
  /-- Raised by the meaning of a MoveCode when the sequencer is not in a move phase: the spec gives a
  MoveCode an effect only there and as an operand of MOVE and RMOVE (30_encoding.md R69). Safe: the
  model stops where the spec says nothing. -/
  | noMoveInProgress
  /-- Raised by `microStep` when the sequencer's index `j` is not below `NMC` (45_orchestrator.md R158
  counts only below it). Safe: the model stops where the spec says nothing. -/
  | noMoveCodeAtIndex
  deriving DecidableEq, Repr

/-- Why the model gives an instruction no meaning. -/
inductive Refusal where
  /-- Raised only by an arm of `exec` whose instruction has no meaning yet; safe. -/
  | notModelled (mnemonic : String)
  deriving DecidableEq, Repr

/-- The state. `S` and `K` are the sequences of exactly `LEN` and `KLEN` bytes, as 10_state.md R33 says a
model should hold them; `LEN` and `KLEN` are their lengths (log entry 1). -/
structure State where
  /-- `NMAX` and `KMAX` (00_scope.md R6); no step writes it (log entry 2). -/
  cap : Capacity
  /-- The State buffer's valid bytes `S[0..LEN)` (R20). -/
  S : List Byte
  /-- The Key buffer's valid bytes `K[0..KLEN)` (R22). -/
  K : List Byte
  /-- `ERR`, the first fault since reset or CLRERR (R24). -/
  err : ErrCode
  /-- The sequencer (R26, R31). -/
  seq : Sequencer
  /-- The host's events yet to come at the command port, oldest first (log entry 3). -/
  port : List PortEvent
  /-- The responses given, oldest first (20_memory.md R47; log entry 4). -/
  out : List Response
  deriving DecidableEq, Repr

/-- The canonical form of the two buffers: a buffer is the sequence of its valid bytes and fits its
capacity (10_state.md R32). Equal buffers are equal sequences. -/
abbrev Memory.wf (s : State) : Prop := s.S.length ≤ s.cap.nmax ∧ s.K.length ≤ s.cap.kmax

/-- The machine after reset with given capacities (10_state.md R31). -/
def State.resetWith (cap : Capacity) : State :=
  { cap := cap, S := [], K := [], err := .ok, seq := .idle, port := [], out := [] }

/-- The machine after reset (10_state.md R31), with the default capacities of 00_scope.md R6. -/
def State.reset : State := State.resetWith Capacity.standard

end Sys2Proof.Machine
end

