-- ==== Sys2Proof/Machine/Flags.lean ====
section
/-! DEFINITION. The engine's only flag is `ERR` (10_state.md R24, R30): its codes, how a fault latches
into it, and the response word that carries a code. -/

namespace Sys2Proof.Machine

/-- The 8-bit code of an error (60_exceptions.md R181). -/
def ErrCode.code (e : ErrCode) : Byte :=
  match e with
  | .ok => 0x00
  | .emptyState => 0x01
  | .emptyKey => 0x02
  | .range => 0x03
  | .overflow => 0x04
  | .illegal => 0x05

/-- `if ERR = 0: ERR <- E` (60_exceptions.md R184): the first code stays. -/
def ErrCode.latch (old e : ErrCode) : ErrCode := if old = .ok then e else old

/-- The response word `RW`: `err` in bits 23..16, `data` in bits 15..0 (30_encoding.md R61). -/
def Response.word (r : Response) : RespWord := r.err.code ++ r.data

end Sys2Proof.Machine
end

