-- ==== Sys2Proof/Machine/Ops.lean ====
section
/-! DEFINITION. The named operations over the state: the length registers, the buffers, the end of a
command (`respond`, `raise`: 40_buffer_access.md R80, 60_exceptions.md R184) and the Reset event. There
is no return from a fault: no context is entered (R186). -/

namespace Sys2Proof.Machine

/-- The register `LEN` (10_state.md R21). -/
def State.LEN (s : State) : Nat := s.S.length

/-- The register `KLEN` (10_state.md R23). -/
def State.KLEN (s : State) : Nat := s.K.length

/-- A new content of the State buffer. -/
def State.withS (s : State) (S : List Byte) : State := { s with S := S }

/-- A new content of the Key buffer. -/
def State.withK (s : State) (K : List Byte) : State := { s with K := K }

/-- A new value of `ERR`. -/
def State.withErr (s : State) (e : ErrCode) : State := { s with err := e }

/-- A new content of the sequencer. -/
def State.withSeq (s : State) (q : Sequencer) : State := { s with seq := q }

/-- A new list of host events to come. -/
def State.withPort (s : State) (p : List PortEvent) : State := { s with port := p }

/-- One more response, after those given (20_memory.md R47). -/
def State.emit (s : State) (r : Response) : State := { s with out := s.out ++ [r] }

/-- `S[LEN] <- v; LEN <- LEN + 1` (40_buffer_access.md R83). -/
def State.appendS (s : State) (v : Byte) : State := s.withS (s.S ++ [v])

/-- `K[KLEN] <- v; KLEN <- KLEN + 1` (40_buffer_access.md R86). -/
def State.appendK (s : State) (v : Byte) : State := s.withK (s.K ++ [v])

/-- `respond(data)`: the command ends without fault (00_scope.md R11, 30_encoding.md R61). -/
def State.respond (s : State) (data : Half) : State :=
  (s.withSeq .idle).emit { err := .ok, data := data }

/-- `raise E`, taking an exception (60_exceptions.md R184): buffers and lengths stay, `ERR` latches the
code, the response carries it with data 0, the command ends. -/
def State.raise (s : State) (e : ErrCode) : State :=
  ((s.withErr (s.err.latch e)).withSeq .idle).emit { err := e, data := 0 }

/-- The Reset event (70_reset_and_hazards.md R200, 10_state.md R31): lengths and `ERR` 0, no command in
progress and no response for it. What the host does next and the responses already given stay (log
entry 16). -/
def State.resetEvent (s : State) : State :=
  (((s.withS []).withK []).withErr .ok).withSeq .idle

/-- The outcome of a step. -/
abbrev Result := Host.Outcome State Fault Refusal

/-- A command that completes with response data. -/
def complete (s : State) (data : Half) : Result := .next (s.respond data)

/-- A command that ends with a fault of the engine. -/
def trap (s : State) (e : ErrCode) : Result := .next (s.raise e)

/-- `if LEN = 0: raise ERR_EMPTY_STATE` before the rest of a command. -/
def needState (s : State) (rest : Result) : Result :=
  if s.LEN = 0 then trap s .emptyState else rest

/-- `if KLEN = 0: raise ERR_EMPTY_KEY` before the rest of a command. -/
def needKey (s : State) (rest : Result) : Result :=
  if s.KLEN = 0 then trap s .emptyKey else rest

/-- `S[0..LEN) <- f(S[0..LEN)); respond()`. -/
def transform (s : State) (f : List Byte → List Byte) : Result := complete (s.withS (f s.S)) 0

end Sys2Proof.Machine
end

