-- ==== Sys2Proof/Machine/Operands.lean ====
section
/-! DEFINITION. Operand forms: the zero-extension of a byte or a MoveCode into response data, and the
fields of a MoveCode against a State of length `n` (30_encoding.md R66, 42_move_layer.md R120). -/

namespace Sys2Proof.Machine

/-- `zext_16` of a byte (00_scope.md R10). -/
def zextByte (v : Byte) : Half := v.setWidth 16

/-- `zext_16` of a MoveCode (00_scope.md R10). -/
def zextCode (c : Code) : Half := c.setWidth 16

/-- A length register as response data: exact while the length is below 65536 (10_state.md R21, R23). -/
def dataOfNat (n : Nat) : Half := BitVec.ofNat 16 n

/-- `b0 = c[3]`, range select (30_encoding.md R66). -/
def codeB0 (c : Code) : Bool := c.getLsbD 3

/-- `b1 = c[2]`, base direction. -/
def codeB1 (c : Code) : Bool := c.getLsbD 2

/-- `b2 = c[1]`, invert. -/
def codeB2 (c : Code) : Bool := c.getLsbD 1

/-- `b3 = c[0]`, swap enable. -/
def codeB3 (c : Code) : Bool := c.getLsbD 0

/-- `half = n div 2` (42_move_layer.md R120). -/
def half (n : Nat) : Nat := n / 2

/-- `lo` of the selected range: `[0, half)` if `b0 = 1`, else `[half, n)` (R120). -/
def moveLo (c : Code) (n : Nat) : Nat := if codeB0 c then 0 else half n

/-- `hi` of the selected range (R120). -/
def moveHi (c : Code) (n : Nat) : Nat := if codeB0 c then half n else n

/-- `cwF`: the forward move rotates clockwise iff `b1 XOR b2` (R120). -/
def forwardClockwise (c : Code) : Bool := codeB1 c ^^ codeB2 c

/-- `cwR`: the reverse move's base direction is `NOT b1`, inverted again if `b2` (R120). -/
def reverseClockwise (c : Code) : Bool := (!codeB1 c) ^^ codeB2 c

/-- The swap index `i = (round + intValue(code)) mod length` (R120, 30_encoding.md R67). -/
def swapIndex (c : Code) (round n : Nat) : Nat := (round + c.toNat) % n

end Sys2Proof.Machine
end

