-- ==== Sys2Proof/Machine/BufferAccess.lean ====
section
/-! DEFINITION. The buffer access and system commands (40_buffer_access.md). -/

namespace Sys2Proof.Machine

/-- NOP (R81). -/
def execNop (s : State) : Result := complete s 0

/-- CLRS (R82). -/
def execClrs (s : State) : Result := complete (s.withS []) 0

/-- PUSHS (R83). -/
def execPushs (v : Byte) (s : State) : Result :=
  if s.LEN = s.cap.nmax then trap s .overflow else complete (s.appendS v) 0

/-- RDS (R84): `ERR_RANGE` when the index is not below `LEN`. -/
def execRds (index : Half) (s : State) : Result :=
  match s.S[index.toNat]? with
  | some v => complete s (zextByte v)
  | none => trap s .range

/-- CLRK (R85). -/
def execClrk (s : State) : Result := complete (s.withK []) 0

/-- PUSHK (R86). -/
def execPushk (v : Byte) (s : State) : Result :=
  if s.KLEN = s.cap.kmax then trap s .overflow else complete (s.appendK v) 0

/-- GETLEN (R87). -/
def execGetlen (s : State) : Result := complete s (dataOfNat s.LEN)

/-- GETKLEN (R88). -/
def execGetklen (s : State) : Result := complete s (dataOfNat s.KLEN)

/-- GETERR (R89): reading does not clear. -/
def execGeterr (s : State) : Result := complete s (zextByte s.err.code)

/-- CLRERR (R90). -/
def execClrerr (s : State) : Result := complete (s.withErr .ok) 0

end Sys2Proof.Machine
end

