-- ==== Sys2Proof/WellFormed.lean ====
section
/-! DEFINITION. Which 40-bit values are commands, transcribed row by row from spec/opcode_table.json
(match and mask) and independent of the decoder, which follows the rules R62 and R64. An `Instr` needs
no check: its operands have the widths their encodings admit. -/

namespace Sys2Proof

/-- One command row of spec/opcode_table.json: `cw` is the row's command iff `cw AND mask = pattern`. -/
structure Row where
  mnemonic : String
  pattern : CmdWord
  mask : CmdWord
  deriving DecidableEq, Repr

/-- The rows of units 0 and 1. -/
def Row.buffersAndPermutation : List Row :=
  [⟨"NOP", 0x0000000000, 0xFFFFFFFFFF⟩, ⟨"CLRS", 0x0100000000, 0xFFFFFFFFFF⟩,
   ⟨"PUSHS", 0x0200000000, 0xFFFFFFFF00⟩, ⟨"RDS", 0x0300000000, 0xFF0000FFFF⟩,
   ⟨"CLRK", 0x0400000000, 0xFFFFFFFFFF⟩, ⟨"PUSHK", 0x0500000000, 0xFFFFFFFF00⟩,
   ⟨"GETLEN", 0x0600000000, 0xFFFFFFFFFF⟩, ⟨"GETKLEN", 0x0700000000, 0xFFFFFFFFFF⟩,
   ⟨"GETERR", 0x0800000000, 0xFFFFFFFFFF⟩, ⟨"CLRERR", 0x0900000000, 0xFFFFFFFFFF⟩,
   ⟨"ROTR", 0x1000000000, 0xFF00000000⟩, ⟨"ROTL", 0x1100000000, 0xFF00000000⟩,
   ⟨"SWAP", 0x1200000000, 0xFF00000000⟩, ⟨"ROTS", 0x1300000000, 0xFFFFFFFFFF⟩,
   ⟨"UROTS", 0x1400000000, 0xFFFFFFFFFF⟩]

/-- The rows of units 2 to 5. -/
def Row.movesToOrchestrator : List Row :=
  [⟨"MOVE", 0x2000000000, 0xFF0000FFF0⟩, ⟨"RMOVE", 0x2100000000, 0xFF0000FFF0⟩,
   ⟨"GETMC", 0x3000000000, 0xFF0000FFFF⟩, ⟨"GETRK", 0x3100000000, 0xFF00000000⟩,
   ⟨"GETSHIFT", 0x3200000000, 0xFFFFFFFFFF⟩, ⟨"DIFF", 0x4000000000, 0xFF0000FFFF⟩,
   ⟨"MIX", 0x4100000000, 0xFFFFFFFFFF⟩, ⟨"RMIX", 0x4200000000, 0xFFFFFFFFFF⟩,
   ⟨"RNDF", 0x5000000000, 0xFF0000FFFF⟩, ⟨"RNDR", 0x5100000000, 0xFF0000FFFF⟩,
   ⟨"ENC", 0x5200000000, 0xFF0000FFFF⟩, ⟨"DEC", 0x5300000000, 0xFF0000FFFF⟩]

/-- The 27 command rows of the opcode table. -/
def Row.commands : List Row := Row.buffersAndPermutation ++ Row.movesToOrchestrator

/-- The row's bits agree with the word's. -/
def Row.fits (row : Row) (cw : CmdWord) : Bool := cw &&& row.mask == row.pattern

/-- A legal command word: some row of the opcode table fits it (30_encoding.md R65, last sentence). -/
def CmdWord.wellFormed (cw : CmdWord) : Bool := Row.commands.any fun row => row.fits cw

end Sys2Proof
end

