-- ==== Sys2Proof/Decode.lean ====
section
/-! DEFINITION. The decoder of command words (30_encoding.md R60 to R65) and of MoveCodes (R66 to R69),
the encoder written from the same tables, and the host's entry `decodeTableWord`. -/

namespace Sys2Proof

/-- Why a 40-bit value is no command; both answer `ERR_ILLEGAL` (30_encoding.md R64, R65). -/
inductive DecodeError where
  /-- `op` is not in the opcode map of R62. -/
  | unknownOpcode
  /-- A reserved bit of R64 is 1. -/
  | reservedBits
  deriving DecidableEq, Repr

/-- `CW[39:32]` (R60). -/
def CmdWord.op (cw : CmdWord) : Byte := cw.extractLsb' 32 8

/-- `CW[31:16]` (R60). -/
def CmdWord.a (cw : CmdWord) : Half := cw.extractLsb' 16 16

/-- `CW[15:0]` (R60). -/
def CmdWord.b (cw : CmdWord) : Half := cw.extractLsb' 0 16

/-- The command word of three fields (R60). -/
def CmdWord.mk (op : Byte) (a b : Half) : CmdWord := op ++ a ++ b

/-- No operands: all of `a` and `b` reserved (R64). -/
def noOperand (i : Instr) (a b : Half) : Except DecodeError Instr :=
  if a = 0 ∧ b = 0 then .ok i else .error .reservedBits

/-- One byte in `b[7:0]`; `a` and `b[15:8]` reserved (R64). -/
def byteOperand (f : Byte → Instr) (a b : Half) : Except DecodeError Instr :=
  if a = 0 ∧ b.extractLsb' 8 8 = 0 then .ok (f (b.extractLsb' 0 8)) else .error .reservedBits

/-- One operand in `a`; `b` reserved (R64). -/
def firstOperand (f : Half → Instr) (a b : Half) : Except DecodeError Instr :=
  if b = 0 then .ok (f a) else .error .reservedBits

/-- A round index in `a` and a MoveCode in `b[3:0]`; `b[15:4]` reserved (R64). -/
def codeOperand (f : Half → Code → Instr) (a b : Half) : Except DecodeError Instr :=
  if b.extractLsb' 4 12 = 0 then .ok (f a (b.extractLsb' 0 4)) else .error .reservedBits

/-- Both operands, no reserved bits (R64). -/
def bothOperands (f : Half → Half → Instr) (a b : Half) : Except DecodeError Instr := .ok (f a b)

/-- The opcode map of R62 over the three fields of a command word. -/
def decodeFields (op : Byte) (a b : Half) : Except DecodeError Instr :=
  match op.toNat with
  | 0x00 => noOperand .nop a b
  | 0x01 => noOperand .clrs a b
  | 0x02 => byteOperand .pushs a b
  | 0x03 => firstOperand .rds a b
  | 0x04 => noOperand .clrk a b
  | 0x05 => byteOperand .pushk a b
  | 0x06 => noOperand .getlen a b
  | 0x07 => noOperand .getklen a b
  | 0x08 => noOperand .geterr a b
  | 0x09 => noOperand .clrerr a b
  | 0x10 => bothOperands .rotr a b
  | 0x11 => bothOperands .rotl a b
  | 0x12 => bothOperands .swap a b
  | 0x13 => noOperand .rots a b
  | 0x14 => noOperand .urots a b
  | 0x20 => codeOperand .move a b
  | 0x21 => codeOperand .rmove a b
  | 0x30 => firstOperand .getmc a b
  | 0x31 => bothOperands .getrk a b
  | 0x32 => noOperand .getshift a b
  | 0x40 => firstOperand .diff a b
  | 0x41 => noOperand .mix a b
  | 0x42 => noOperand .rmix a b
  | 0x50 => firstOperand .rndf a b
  | 0x51 => firstOperand .rndr a b
  | 0x52 => firstOperand .enc a b
  | 0x53 => firstOperand .dec a b
  | _ => .error .unknownOpcode

/-- The decoder of command words, total on all 40-bit values (R65). -/
def decode (cw : CmdWord) : Except DecodeError Instr :=
  decodeFields (CmdWord.op cw) (CmdWord.a cw) (CmdWord.b cw)

/-- The decoder of MoveCodes: "Every 4-bit value is a legal MoveCode" (R68). -/
def decodeMoveCode (c : Code) : Instr :=
  match c.toNat with
  | 0 => .mc0
  | 1 => .mc1
  | 2 => .mc2
  | 3 => .mc3
  | 4 => .mc4
  | 5 => .mc5
  | 6 => .mc6
  | 7 => .mc7
  | 8 => .mc8
  | 9 => .mc9
  | 10 => .mc10
  | 11 => .mc11
  | 12 => .mc12
  | 13 => .mc13
  | 14 => .mc14
  | _ => .mc15

/-- The bits of an instruction: a command word or a MoveCode ("Two encodings exist", 30_encoding.md). -/
inductive Encoding where
  | command (cw : CmdWord)
  | moveCode (c : Code)
  deriving DecidableEq, Repr

/-- The encoder: the opcode, operand and reserved columns of R62, the codes of R68. -/
def encode (i : Instr) : Encoding :=
  match i with
  | .nop => .command (CmdWord.mk 0x00 0 0)
  | .clrs => .command (CmdWord.mk 0x01 0 0)
  | .pushs v => .command (CmdWord.mk 0x02 0 (0#8 ++ v))
  | .rds index => .command (CmdWord.mk 0x03 index 0)
  | .clrk => .command (CmdWord.mk 0x04 0 0)
  | .pushk v => .command (CmdWord.mk 0x05 0 (0#8 ++ v))
  | .getlen => .command (CmdWord.mk 0x06 0 0)
  | .getklen => .command (CmdWord.mk 0x07 0 0)
  | .geterr => .command (CmdWord.mk 0x08 0 0)
  | .clrerr => .command (CmdWord.mk 0x09 0 0)
  | .rotr start stop => .command (CmdWord.mk 0x10 start stop)
  | .rotl start stop => .command (CmdWord.mk 0x11 start stop)
  | .swap pos1 pos2 => .command (CmdWord.mk 0x12 pos1 pos2)
  | .rots => .command (CmdWord.mk 0x13 0 0)
  | .urots => .command (CmdWord.mk 0x14 0 0)
  | .move round code => .command (CmdWord.mk 0x20 round (0#12 ++ code))
  | .rmove round code => .command (CmdWord.mk 0x21 round (0#12 ++ code))
  | .getmc j => .command (CmdWord.mk 0x30 j 0)
  | .getrk r i => .command (CmdWord.mk 0x31 r i)
  | .getshift => .command (CmdWord.mk 0x32 0 0)
  | .diff round => .command (CmdWord.mk 0x40 round 0)
  | .mix => .command (CmdWord.mk 0x41 0 0)
  | .rmix => .command (CmdWord.mk 0x42 0 0)
  | .rndf round => .command (CmdWord.mk 0x50 round 0)
  | .rndr round => .command (CmdWord.mk 0x51 round 0)
  | .enc rounds => .command (CmdWord.mk 0x52 rounds 0)
  | .dec rounds => .command (CmdWord.mk 0x53 rounds 0)
  | .mc0 => .moveCode 0#4
  | .mc1 => .moveCode 1#4
  | .mc2 => .moveCode 2#4
  | .mc3 => .moveCode 3#4
  | .mc4 => .moveCode 4#4
  | .mc5 => .moveCode 5#4
  | .mc6 => .moveCode 6#4
  | .mc7 => .moveCode 7#4
  | .mc8 => .moveCode 8#4
  | .mc9 => .moveCode 9#4
  | .mc10 => .moveCode 10#4
  | .mc11 => .moveCode 11#4
  | .mc12 => .moveCode 12#4
  | .mc13 => .moveCode 13#4
  | .mc14 => .moveCode 14#4
  | .mc15 => .moveCode 15#4

/-- The decoder of either encoding. -/
def decodeEncoding (e : Encoding) : Except DecodeError Instr :=
  match e with
  | .command cw => decode cw
  | .moveCode c => .ok (decodeMoveCode c)

/-- The bits of an opcode-table row (log entry 8): up to one byte they are a MoveCode, whose upper bits
are 0, otherwise a command word, moved whole (20_memory.md R42). -/
def decodeTableWord (nbits w : Nat) : Option Instr :=
  if nbits ≤ 8 then
    if w < 16 then some (decodeMoveCode (BitVec.ofNat 4 w)) else none
  else if w < 2 ^ 40 then (decode (BitVec.ofNat 40 w)).toOption
  else none

end Sys2Proof
end

