-- ==== Sys2Proof/Machine/KeySchedule.lean ====
section
/-! DEFINITION. The key schedule unit (43_key_schedule.md): derived quantities, evaluated on demand from
the current key (20_memory.md R49, 10_state.md R25), and the commands that read them. -/

namespace Sys2Proof.Machine

/-- `K[k][7:4]`, the code that comes first (R131). -/
def highNibble (v : Byte) : Code := v.extractLsb' 4 4

/-- `K[k][3:0]` (R131). -/
def lowNibble (v : Byte) : Code := v.extractLsb' 0 4

/-- `moveCodes(key)`, the sequence `MC[0..NMC)` (R131). -/
def moveCodes (K : List Byte) : List Code := K.flatMap fun v => [highNibble v, lowNibble v]

/-- `NMC = 2 * KLEN` (R131). -/
def nmc (K : List Byte) : Nat := 2 * K.length

/-- `KSUM`, unreduced (R132). -/
def ksum (K : List Byte) : Nat := (K.map BitVec.toNat).sum

/-- `SHIFT = KSUM mod LEN`, for `LEN >= 1` (R134). -/
def shift (K : List Byte) (len : Nat) : Nat := ksum K % len

/-- `RK(r, i) = (K[i mod KLEN] * 31 + KSUM + r + i) mod 256`, for `KLEN >= 1` (R133; log entry 13 for the
empty key, on which no command calls it). -/
def roundKeyByte (K : List Byte) (r i : Nat) : Byte :=
  BitVec.ofNat 8 ((K.getD (i % K.length) 0).toNat * Config.keyMultiplier + ksum K + r + i)

/-- `keySchedule[r]` for a State of length `n` (R133). -/
def roundKey (K : List Byte) (r n : Nat) : List Byte :=
  (List.range n).map fun i => roundKeyByte K r i

/-- GETMC (R135): `ERR_RANGE` when `j` is not below `NMC`. -/
def execGetmc (j : Half) (s : State) : Result :=
  match (moveCodes s.K)[j.toNat]? with
  | some c => complete s (zextCode c)
  | none => trap s .range

/-- GETRK (R136): empty key before range. -/
def execGetrk (r i : Half) (s : State) : Result :=
  needKey s <|
    if i.toNat ≥ s.LEN then trap s .range
    else complete s (zextByte (roundKeyByte s.K r.toNat i.toNat))

/-- GETSHIFT (R137). -/
def execGetshift (s : State) : Result :=
  needState s <| complete s (dataOfNat (shift s.K s.LEN))

end Sys2Proof.Machine
end

