-- ==== Sys2Proof/Machine/Permutation.lean ====
section
/-! DEFINITION. The permutation rotator (41_permutation.md): rotations of a range, positional swap,
whole-State rotation, and their commands. Rotations are copy-on-write, which 70_reset_and_hazards.md R204
accepts. -/

namespace Sys2Proof.Machine

/-- Replace the half-open range `[lo, hi)` of `s` by what `f` makes of it. -/
def onRange (f : List Byte → List Byte) (s : List Byte) (lo hi : Nat) : List Byte :=
  s.take lo ++ f ((s.take hi).drop lo) ++ s.drop hi

/-- The last element moves to the front (R100). -/
def lastToFront (m : List Byte) : List Byte :=
  match m.getLast? with
  | some t => t :: m.dropLast
  | none => []

/-- The first element moves to the back (R101). -/
def firstToBack (m : List Byte) : List Byte :=
  match m with
  | [] => []
  | t :: rest => rest ++ [t]

/-- The no-op guard of R100 and R101: `start < 0`, `end > length` or `start >= end`. -/
def badRange (s : List Byte) (start stop : Int) : Bool :=
  start < 0 || stop > (s.length : Int) || start ≥ stop

/-- `rotateRight(s, start, end)` on mathematical integers (R100, 30_encoding.md R63). -/
def rotateRight (s : List Byte) (start stop : Int) : List Byte :=
  if badRange s start stop then s else onRange lastToFront s start.toNat stop.toNat

/-- `rotateLeft(s, start, end)` (R101). -/
def rotateLeft (s : List Byte) (start stop : Int) : List Byte :=
  if badRange s start stop then s else onRange firstToBack s start.toNat stop.toNat

/-- `swap(s, pos1, pos2)`, positions modulo the length, for `n >= 1` (R102). -/
def swap (s : List Byte) (pos1 pos2 : Nat) : List Byte :=
  let p := pos1 % s.length
  let q := pos2 % s.length
  match s[p]?, s[q]? with
  | some x, some y => (s.set p y).set q x
  | _, _ => s

/-- `rotateState(s, shift)`: the last `shift` elements to the front, for `0 <= shift < n` (R103). -/
def rotateState (s : List Byte) (k : Nat) : List Byte :=
  s.drop (s.length - k) ++ s.take (s.length - k)

/-- `unrotateState(s, shift)`: the first `shift` elements to the back (R104). -/
def unrotateState (s : List Byte) (k : Nat) : List Byte := s.drop k ++ s.take k

/-- ROTR (R105). -/
def execRotr (start stop : Half) (s : State) : Result :=
  transform s fun S => rotateRight S start.toNat stop.toNat

/-- ROTL (R106). -/
def execRotl (start stop : Half) (s : State) : Result :=
  transform s fun S => rotateLeft S start.toNat stop.toNat

/-- SWAP (R107). -/
def execSwap (pos1 pos2 : Half) (s : State) : Result :=
  needState s <| transform s fun S => swap S pos1.toNat pos2.toNat

/-- ROTS (R108). -/
def execRots (s : State) : Result :=
  needState s <| transform s fun S => rotateState S (shift s.K s.LEN)

/-- UROTS (R109). -/
def execUrots (s : State) : Result :=
  needState s <| transform s fun S => unrotateState S (shift s.K s.LEN)

end Sys2Proof.Machine
end

