-- ==== Sys2Proof/Machine/Move.lean ====
section
/-! DEFINITION. The move layer (42_move_layer.md): `applyMove`, `reverseMove`, MOVE and RMOVE. -/

namespace Sys2Proof.Machine

/-- Rotate the range a MoveCode selects, clockwise or counterclockwise (R120). -/
def rotateSelected (c : Code) (clockwise : Bool) (s : List Byte) : List Byte :=
  if clockwise then rotateRight s (moveLo c s.length) (moveHi c s.length)
  else rotateLeft s (moveLo c s.length) (moveHi c s.length)

/-- The swap of a MoveCode, of positions `i` and `(i+1) mod n` (R120), done iff `b3 = 1`. -/
def swapSelected (c : Code) (round : Nat) (s : List Byte) : List Byte :=
  if codeB3 c then
    let i := swapIndex c round s.length
    swap s i ((i + 1) % s.length)
  else s

/-- `applyMove(s, c, round)`: rotate, then swap (R121). -/
def applyMove (s : List Byte) (c : Code) (round : Nat) : List Byte :=
  swapSelected c round (rotateSelected c (forwardClockwise c) s)

/-- `reverseMove(s, c, round)`: swap, then rotate the other way (R122). -/
def reverseMove (s : List Byte) (c : Code) (round : Nat) : List Byte :=
  rotateSelected c (reverseClockwise c) (swapSelected c round s)

/-- MOVE (R123). -/
def execMove (round : Half) (code : Code) (s : State) : Result :=
  needState s <| transform s fun S => applyMove S code round.toNat

/-- RMOVE (R124). -/
def execRmove (round : Half) (code : Code) (s : State) : Result :=
  needState s <| transform s fun S => reverseMove S code round.toNat

end Sys2Proof.Machine
end

