-- ==== Sys2Proof/Machine/Mixing.lean ====
section
/-! DEFINITION. The XOR diffusion unit and the byte-mixing pipeline (44_diffusion_mixing.md). The passes
over the State are written as recursions that give the values of the in-place loops of R141 and R142
(70_reset_and_hazards.md R203; log entry 12). -/

namespace Sys2Proof.Machine

/-- `diffuse(s, roundKey)`, element-wise XOR (R140). DESIGN CHOICE (log entry 13): on unequal lengths, where
the spec gives it no value, it cuts to the shorter; no command calls it there. -/
def diffuse (s key : List Byte) : List Byte := List.zipWith (fun x k => x ^^^ k) s key

/-- The ascending pass of R141 from a position whose left neighbour already holds `prev`. -/
def mixFrom (prev : Byte) (s : List Byte) : List Byte :=
  match s with
  | [] => []
  | x :: rest =>
    let y := x * Config.mixMultiplier + prev
    y :: mixFrom y rest

/-- `mix(s)` (R141): at position 0 the neighbour is the last byte as it stands before the pass. -/
def mix (s : List Byte) : List Byte :=
  match s.getLast? with
  | some last => mixFrom last s
  | none => []

/-- The descending pass of R142 over the positions from 1 on: the left neighbour `prev` of the first of
`s` is not yet rewritten when that byte is. -/
def unmixFrom (prev : Byte) (s : List Byte) : List Byte :=
  match s with
  | [] => []
  | y :: rest => (y - prev) * Config.inverse17 :: unmixFrom y rest

/-- `reverseMix(s)` (R142): position 0 comes last, and its neighbour is the last byte, already recovered
when there are two bytes or more, the byte itself when there is one. -/
def reverseMix (s : List Byte) : List Byte :=
  match s with
  | [] => []
  | y :: rest =>
    let xs := unmixFrom y rest
    (y - xs.getLast?.getD y) * Config.inverse17 :: xs

/-- DIFF (R144). -/
def execDiff (round : Half) (s : State) : Result :=
  needKey s <| transform s fun S => diffuse S (roundKey s.K round.toNat S.length)

/-- MIX (R145). -/
def execMix (s : State) : Result := transform s mix

/-- RMIX (R146). -/
def execRmix (s : State) : Result := transform s reverseMix

end Sys2Proof.Machine
end

