-- ==== Sys2Proof/Machine/Orchestrator.lean ====
section
/-! DEFINITION. The round-function orchestrator (45_orchestrator.md): rounds, `encryptCore`,
`decryptCore`, and the macro commands as the single atomic commands they are to the host
(20_memory.md R45). The same commands one micro-operation at a time are in Sequencing.lean. -/

namespace Sys2Proof.Machine

/-- `roundF(s, r)` (R150). -/
def roundF (K : List Byte) (s : List Byte) (r : Nat) : List Byte :=
  let moved := (moveCodes K).foldl (fun t c => applyMove t c r) s
  mix (diffuse moved (roundKey K r moved.length))

/-- `roundR(s, r)` (R151). -/
def roundR (K : List Byte) (s : List Byte) (r : Nat) : List Byte :=
  let unmixed := reverseMix s
  (moveCodes K).reverse.foldl (fun t c => reverseMove t c r)
    (diffuse unmixed (roundKey K r unmixed.length))

/-- `encryptCore(s, rounds)` (R152): `r = 0 .. rounds-1` (90_conflicts.md C8). -/
def encryptCore (K : List Byte) (s : List Byte) (rounds : Nat) : List Byte :=
  (List.range rounds).foldl (roundF K) (rotateState s (shift K s.length))

/-- `decryptCore(s, rounds)` (R153): `r = rounds-1 .. 0`. -/
def decryptCore (K : List Byte) (s : List Byte) (rounds : Nat) : List Byte :=
  let t := (List.range rounds).reverse.foldl (roundR K) s
  unrotateState t (shift K t.length)

/-- The checks of every macro command, in order (R154 to R157). -/
def needBoth (s : State) (rest : Result) : Result := needState s (needKey s rest)

/-- RNDF (R154). -/
def execRndf (round : Half) (s : State) : Result :=
  needBoth s <| transform s fun S => roundF s.K S round.toNat

/-- RNDR (R155). -/
def execRndr (round : Half) (s : State) : Result :=
  needBoth s <| transform s fun S => roundR s.K S round.toNat

/-- ENC (R156). -/
def execEnc (rounds : Half) (s : State) : Result :=
  needBoth s <| transform s fun S => encryptCore s.K S rounds.toNat

/-- DEC (R157). -/
def execDec (rounds : Half) (s : State) : Result :=
  needBoth s <| transform s fun S => decryptCore s.K S rounds.toNat

end Sys2Proof.Machine
end

