-- ==== Sys2Proof/Machine/Sequencing.lean ====
section
/-! DEFINITION. The sequencer of the orchestrator (10_state.md R26): a macro command as its sequence of
micro-operations (45_orchestrator.md R158, R159), and the MoveCodes as the instructions the Move Layer
executes in it (20_memory.md R49). `exec` of a macro command (Orchestrator.lean) is the same command in
one atomic step (log entry 5). -/

namespace Sys2Proof.Machine

/-- The sequencer's start for a macro command that has passed validation (R158, R159). -/
def firstMicroOp (i : Instr) : Option Sequencer :=
  match i with
  | .rndf round => some (.running .rndf .move round.toNat 0)
  | .rndr round => some (.running .rndr .rmix round.toNat 0)
  | .enc rounds => some (.running (.enc rounds.toNat) .rot 0 0)
  | .dec rounds =>
    if rounds.toNat = 0 then some (.running (.dec 0) .unrot 0 0)
    else some (.running (.dec rounds.toNat) .rmix (rounds.toNat - 1) 0)
  | _ => none

/-- After `MOVE(r, MC[j])`: the next code of the round, or its `DIFF(r)` (R158). -/
def afterMove (s : State) (m : Macro) (r j : Nat) : State :=
  if j + 1 < nmc s.K then s.withSeq (.running m .move r (j + 1))
  else s.withSeq (.running m .diff r 0)

/-- After the `MIX` of round `r`: the next round of ENC, or the end (R158). DESIGN CHOICE (log entry 7):
RNDR or DEC, which no run has in phase `mix`, end here with a response without error. -/
def afterMix (s : State) (m : Macro) (r : Nat) : State :=
  match m with
  | .enc rounds =>
    if r + 1 < rounds then s.withSeq (.running m .move (r + 1) 0) else s.respond 0
  | .rndf | .rndr | .dec _ => s.respond 0

/-- After `ROT`: round 0 of ENC, or the end when there are no rounds (R158). DESIGN CHOICE (log entry 7):
any other command, which no run has in phase `rot`, ends here with a response without error. -/
def afterRot (s : State) (m : Macro) : State :=
  match m with
  | .enc rounds => if 0 < rounds then s.withSeq (.running m .move 0 0) else s.respond 0
  | .rndf | .rndr | .dec _ => s.respond 0

/-- After `RMOVE(r, MC[j])`: the code before it, the round before it, `UNROT`, or the end (R159).
DESIGN CHOICE (log entry 7): RNDF or ENC, which no run has in phase `rmove`, end here with a response
without error. -/
def afterRmove (s : State) (m : Macro) (r j : Nat) : State :=
  if j ≠ 0 then s.withSeq (.running m .rmove r (j - 1))
  else
    match m with
    | .dec _ =>
      if r = 0 then s.withSeq (.running m .unrot 0 0) else s.withSeq (.running m .rmix (r - 1) 0)
    | .rndf | .rndr | .enc _ => s.respond 0

/-- What the Move Layer does with a MoveCode: the forward or the reverse move with the round index the
sequencer holds (R121, R122, R158, R159). On an empty State it raises `ERR_EMPTY_STATE`, as 42 R123 says
of a move "whatever the code" (log entry 7). -/
def execMoveCode (c : Code) (s : State) : Result :=
  match s.seq with
  | .running m .move r j =>
    needState s <| .next (afterMove (s.withS (applyMove s.S c r)) m r j)
  | .running m .rmove r j =>
    needState s <| .next (afterRmove (s.withS (reverseMove s.S c r)) m r j)
  | _ => .fault .noMoveInProgress

/-- MoveCode 0 (30_encoding.md R68). -/
def execMc0 (s : State) : Result := execMoveCode 0#4 s

/-- MoveCode 1 (30_encoding.md R68). -/
def execMc1 (s : State) : Result := execMoveCode 1#4 s

/-- MoveCode 2 (30_encoding.md R68). -/
def execMc2 (s : State) : Result := execMoveCode 2#4 s

/-- MoveCode 3 (30_encoding.md R68). -/
def execMc3 (s : State) : Result := execMoveCode 3#4 s

/-- MoveCode 4 (30_encoding.md R68). -/
def execMc4 (s : State) : Result := execMoveCode 4#4 s

/-- MoveCode 5 (30_encoding.md R68). -/
def execMc5 (s : State) : Result := execMoveCode 5#4 s

/-- MoveCode 6 (30_encoding.md R68). -/
def execMc6 (s : State) : Result := execMoveCode 6#4 s

/-- MoveCode 7 (30_encoding.md R68). -/
def execMc7 (s : State) : Result := execMoveCode 7#4 s

/-- MoveCode 8 (30_encoding.md R68). -/
def execMc8 (s : State) : Result := execMoveCode 8#4 s

/-- MoveCode 9 (30_encoding.md R68). -/
def execMc9 (s : State) : Result := execMoveCode 9#4 s

/-- MoveCode 10 (30_encoding.md R68). -/
def execMc10 (s : State) : Result := execMoveCode 10#4 s

/-- MoveCode 11 (30_encoding.md R68). -/
def execMc11 (s : State) : Result := execMoveCode 11#4 s

/-- MoveCode 12 (30_encoding.md R68). -/
def execMc12 (s : State) : Result := execMoveCode 12#4 s

/-- MoveCode 13 (30_encoding.md R68). -/
def execMc13 (s : State) : Result := execMoveCode 13#4 s

/-- MoveCode 14 (30_encoding.md R68). -/
def execMc14 (s : State) : Result := execMoveCode 14#4 s

/-- MoveCode 15 (30_encoding.md R68). -/
def execMc15 (s : State) : Result := execMoveCode 15#4 s

/-- `ROT` (R158). -/
def microRot (s : State) (m : Macro) : Result :=
  needState s <| .next (afterRot (s.withS (rotateState s.S (shift s.K s.LEN))) m)

/-- `DIFF(r)`, before the phase that follows it (R158, R159). -/
def microDiff (s : State) (r : Nat) (next : Sequencer) : Result :=
  needKey s <| .next ((s.withS (diffuse s.S (roundKey s.K r s.S.length))).withSeq next)

/-- `MIX` (R158). -/
def microMix (s : State) (m : Macro) (r : Nat) : Result :=
  .next (afterMix (s.withS (mix s.S)) m r)

/-- `RMIX` (R159). -/
def microRmix (s : State) (m : Macro) (r : Nat) : Result :=
  .next ((s.withS (reverseMix s.S)).withSeq (.running m .rdiff r 0))

/-- `UNROT` (R159), the end of DEC. DESIGN CHOICE (log entry 7): any other command, which no run has in
phase `unrot`, ends here too. -/
def microUnrot (s : State) : Result :=
  needState s <| transform s fun S => unrotateState S (shift s.K s.LEN)

end Sys2Proof.Machine
end

