-- ==== Sys2Proof/Machine/Dispatch.lean ====
section
/-! DEFINITION. The dispatch: one arm per instruction, each one call of its meaning. -/

namespace Sys2Proof.Machine

def exec (i : Instr) (s : State) : Host.Outcome State Fault Refusal :=
  match i with
  | .nop => Sys2Proof.Machine.execNop s
  | .clrs => Sys2Proof.Machine.execClrs s
  | .pushs v => Sys2Proof.Machine.execPushs v s
  | .rds index => Sys2Proof.Machine.execRds index s
  | .clrk => Sys2Proof.Machine.execClrk s
  | .pushk v => Sys2Proof.Machine.execPushk v s
  | .getlen => Sys2Proof.Machine.execGetlen s
  | .getklen => Sys2Proof.Machine.execGetklen s
  | .geterr => Sys2Proof.Machine.execGeterr s
  | .clrerr => Sys2Proof.Machine.execClrerr s
  | .rotr start stop => Sys2Proof.Machine.execRotr start stop s
  | .rotl start stop => Sys2Proof.Machine.execRotl start stop s
  | .swap pos1 pos2 => Sys2Proof.Machine.execSwap pos1 pos2 s
  | .rots => Sys2Proof.Machine.execRots s
  | .urots => Sys2Proof.Machine.execUrots s
  | .move round code => Sys2Proof.Machine.execMove round code s
  | .rmove round code => Sys2Proof.Machine.execRmove round code s
  | .getmc j => Sys2Proof.Machine.execGetmc j s
  | .getrk round pos => Sys2Proof.Machine.execGetrk round pos s
  | .getshift => Sys2Proof.Machine.execGetshift s
  | .diff round => Sys2Proof.Machine.execDiff round s
  | .mix => Sys2Proof.Machine.execMix s
  | .rmix => Sys2Proof.Machine.execRmix s
  | .rndf round => Sys2Proof.Machine.execRndf round s
  | .rndr round => Sys2Proof.Machine.execRndr round s
  | .enc rounds => Sys2Proof.Machine.execEnc rounds s
  | .dec rounds => Sys2Proof.Machine.execDec rounds s
  | .mc0 => Sys2Proof.Machine.execMc0 s
  | .mc1 => Sys2Proof.Machine.execMc1 s
  | .mc2 => Sys2Proof.Machine.execMc2 s
  | .mc3 => Sys2Proof.Machine.execMc3 s
  | .mc4 => Sys2Proof.Machine.execMc4 s
  | .mc5 => Sys2Proof.Machine.execMc5 s
  | .mc6 => Sys2Proof.Machine.execMc6 s
  | .mc7 => Sys2Proof.Machine.execMc7 s
  | .mc8 => Sys2Proof.Machine.execMc8 s
  | .mc9 => Sys2Proof.Machine.execMc9 s
  | .mc10 => Sys2Proof.Machine.execMc10 s
  | .mc11 => Sys2Proof.Machine.execMc11 s
  | .mc12 => Sys2Proof.Machine.execMc12 s
  | .mc13 => Sys2Proof.Machine.execMc13 s
  | .mc14 => Sys2Proof.Machine.execMc14 s
  | .mc15 => Sys2Proof.Machine.execMc15 s

end Sys2Proof.Machine
end

