-- ==== Sys2Proof/Machine/Port.lean ====
section
/-! DEFINITION. The command port (20_memory.md R47): the next command word, decoded and executed by the
template of 40_buffer_access.md R80; the sequencer's next micro-operation; the Reset event. Also where
`withFetchWord` places an instruction. -/

namespace Sys2Proof.Machine

/-- The next micro-operation of the command in progress (45_orchestrator.md R158, R159): in a move phase
the MoveCode `MC[j]` is fetched from the key and executed. An idle engine keeps its state
(60_exceptions.md R192). DESIGN CHOICE (log entry 7): the phase alone selects the micro-operation, also
for a command that no run has in that phase. -/
def microStep (s : State) : Result :=
  match s.seq with
  | .idle => .next s
  | .running m phase r j =>
    match phase with
    | .rot => microRot s m
    | .move | .rmove =>
      match (moveCodes s.K)[j]? with
      | some c => exec (decodeMoveCode c) s
      | none => .fault .noMoveCodeAtIndex
    | .diff => microDiff s r (.running m .mix r 0)
    | .mix => microMix s m r
    | .rmix => microRmix s m r
    | .rdiff => microDiff s r (.running m .rmove r (nmc s.K - 1))
    | .unrot => microUnrot s

/-- A presented command word runs to completion; an illegal one raises `ERR_ILLEGAL` (40 R80 step 2). -/
def runCommand (cw : CmdWord) (s : State) : Result :=
  match decode cw with
  | .ok i => exec i s
  | .error _ => trap s .illegal

/-- A presented command word whose macro command is followed micro-operation by micro-operation: the
command is validated as R154 to R157 say and the sequencer starts. Any other word runs as a command. -/
def startCommand (cw : CmdWord) (s : State) : Result :=
  match decode cw with
  | .ok i =>
    match firstMicroOp i with
    | some q => needBoth s (.next (s.withSeq q))
    | none => exec i s
  | .error _ => trap s .illegal

/-- One step at the port. A Reset that is the next event acts at once, also on a command in progress
(70_reset_and_hazards.md R200); a command word waits until the engine is idle (R207). DESIGN CHOICE (log
entry 16): a Reset listed behind a waiting word acts only after that word's command. -/
def portStep (s : State) : Result :=
  match s.port with
  | [] => microStep s
  | .reset :: rest => .next (s.withPort rest).resetEvent
  | .quiet :: rest => microStep (s.withPort rest)
  | .command cw :: rest =>
    if s.seq = .idle then runCommand cw (s.withPort rest) else microStep s
  | .sequenced cw :: rest =>
    if s.seq = .idle then startCommand cw (s.withPort rest) else microStep s

/-- The engine idle with a command word as the next event at the port (log entry 8). -/
def placeCommand (s : State) (cw : CmdWord) : State :=
  (s.withSeq .idle).withPort (.command cw :: s.port)

/-- The key with `c` as its first MoveCode `MC[0]`. -/
def keyWithFirstCode (K : List Byte) (c : Code) : List Byte :=
  match K with
  | [] => [c ++ 0#4]
  | v :: rest => (c ++ lowNibble v) :: rest

/-- A State buffer that passes the validation of a macro command (R154). -/
def nonemptyState (S : List Byte) : List Byte :=
  match S with
  | [] => [0#8]
  | v :: rest => v :: rest

/-- `RNDF 0` in progress at its first move, whose MoveCode is `c`, with no reset arriving (log entry 8). -/
def placeMoveCode (s : State) (c : Code) : State :=
  (((s.withK (keyWithFirstCode s.K c)).withS (nonemptyState s.S)).withSeq
    (.running .rndf .move 0 0)).withPort (.quiet :: s.port)

/-- Where the next step finds the instruction whose bits are `w`: up to one byte a MoveCode, otherwise a
command word, as `decodeTableWord` reads them. -/
def placeWord (s : State) (nbits w : Nat) : State :=
  if nbits ≤ 8 then placeMoveCode s (BitVec.ofNat 4 w) else placeCommand s (BitVec.ofNat 40 w)

end Sys2Proof.Machine
end

