-- ==== Sys2Proof/Machine/Step.lean ====
section
/-! DEFINITION. One step of the machine, and the host's way to place an instruction where the next step
fetches it. -/

namespace Sys2Proof.Machine

/-- One step: what the engine does next at its port (Port.lean). -/
def step (s : State) : Host.Outcome State Fault Refusal := portStep s

/-- `s` with the instruction whose bits are `w` where the next step fetches it (log entry 8). -/
def State.withFetchWord (s : State) (nbits w : Nat) : State := placeWord s nbits w

end Sys2Proof.Machine
end

