-- ==== Sys2Proof/Machine/HostCodec.lean ====
section
/-! DEFINITION. The host adapter around the engine (46_host_codec.md): the codec, the checks and the
command lists of the call procedures, and the calls run on the machine by `step`. Text is the list of
its code points; hex strings are lists of characters (log entry 15). -/

namespace Sys2Proof.Machine

/-- What a call reports instead of a result (R175, R176, R188). -/
inductive HostError where
  | emptyState
  | malformedHex
  | invalidRounds
  | lossyCharacter
  /-- A key character above 255 (R174). -/
  | wideKey
  /-- `rounds > 65535`, a text above `NMAX` or a key above `KMAX` (R175). -/
  | capacity
  /-- A command of the call ended with this code (R188). -/
  | engine (e : ErrCode)
  /-- The machine gave no response to a command of the call. -/
  | noResponse
  deriving DecidableEq, Repr

/-- The error kind of an engine code (60_exceptions.md R188). -/
def HostError.ofCode (e : ErrCode) : HostError :=
  match e with
  | .emptyState => .emptyState
  | .ok | .emptyKey | .range | .overflow | .illegal => .engine e

/-- `textToBytes(text)` under a policy (R170). -/
def textToBytes (policy : WideCharPolicy) (text : List Nat) : Except HostError (List Byte) :=
  match policy with
  | .refuse =>
    if text.all fun c => c < 256 then .ok (text.map (BitVec.ofNat 8)) else .error .lossyCharacter
  | .truncate => .ok (text.map (BitVec.ofNat 8))

/-- `bytesToText(bytes)` (R171). -/
def bytesToText (bytes : List Byte) : List Nat := bytes.map BitVec.toNat

/-- The hex digit of a nibble, one of `0123456789abcdef` (R172). -/
def hexDigit (c : Code) : Char :=
  if c.toNat < 10 then Char.ofNat (48 + c.toNat) else Char.ofNat (87 + c.toNat)

/-- `bytesToHex(bytes)` (R172): two lowercase digits a byte, high nibble first. -/
def bytesToHex (bytes : List Byte) : List Char :=
  bytes.flatMap fun v => [hexDigit (highNibble v), hexDigit (lowNibble v)]

/-- The nibble of a hex digit, of either case (R173). -/
def hexValue (d : Char) : Option Code :=
  if 48 ≤ d.toNat ∧ d.toNat ≤ 57 then some (BitVec.ofNat 4 (d.toNat - 48))
  else if 97 ≤ d.toNat ∧ d.toNat ≤ 102 then some (BitVec.ofNat 4 (d.toNat - 87))
  else if 65 ≤ d.toNat ∧ d.toNat ≤ 70 then some (BitVec.ofNat 4 (d.toNat - 55))
  else none

/-- `hexToBytes(hex)` (R173): fails on an odd length or a character that is no hex digit. -/
def hexToBytes (hex : List Char) : Except HostError (List Byte) :=
  match hex with
  | [] => .ok []
  | [_] => .error .malformedHex
  | h :: l :: rest =>
    match hexValue h, hexValue l, hexToBytes rest with
    | some x, some y, .ok bytes => .ok ((x ++ y) :: bytes)
    | _, _, _ => .error .malformedHex

/-- Key conversion (R174). -/
def keyToBytes (key : List Nat) : Except HostError (List Byte) :=
  if key.all fun c => c < 256 then .ok (key.map (BitVec.ofNat 8)) else .error .wideKey

/-- The checks of R175 that concern sizes and rounds, in the order it lists them. -/
def checkCall (cap : Capacity) (stateLength keyLength : Nat) (rounds : Int) : Except HostError Unit :=
  if rounds < 0 then .error .invalidRounds
  else if rounds > 65535 ∨ stateLength > cap.nmax ∨ keyLength > cap.kmax then .error .capacity
  else if stateLength = 0 then .error .emptyState
  else .ok ()

/-- The command word of an instruction, if it is a command. -/
def wordOf (i : Instr) : List CmdWord :=
  match encode i with
  | .command cw => [cw]
  | .moveCode _ => []

/-- `CLRK; PUSHK k ...; CLRS; PUSHS p ...` (R175, R177). -/
def loadCommands (key state : List Byte) : List CmdWord :=
  ((Instr.clrk :: key.map Instr.pushk) ++ (Instr.clrs :: state.map Instr.pushs)).flatMap wordOf

/-- `RDS 0; ...; RDS LEN-1` (R175, R177). -/
def readCommands (n : Nat) : List CmdWord :=
  ((List.range n).map fun i => Instr.rds (BitVec.ofNat 16 i)).flatMap wordOf

/-- `CLRS; CLRK` (R175, R177; 70_reset_and_hazards.md R209). -/
def clearCommands : List CmdWord := [Instr.clrs, Instr.clrk].flatMap wordOf

/-- One command of a call, presented next at the port and answered: the state after it and the response
data, or the error kind of a response whose `err` is not 0. DESIGN CHOICE (log entry 15): a call needs an
idle engine, since 20_memory.md R50 leaves serialising calls to the host; on a busy one the word is not
taken in this step and the last response given is an earlier command's. -/
def transact (s : State) (cw : CmdWord) : Except HostError (State × Half) :=
  match step (s.withPort (.command cw :: s.port)) with
  | .next t =>
    match t.out.getLast? with
    | some r => if r.err = .ok then .ok (t, r.data) else .error (HostError.ofCode r.err)
    | none => .error .noResponse
  | .fault _ => .error .noResponse
  | .refused _ => .error .noResponse

/-- Commands of a call one after another, stopping at the first non-zero `err` (R186). -/
def transactAll (s : State) (cws : List CmdWord) : Except HostError (State × List Half) :=
  match cws with
  | [] => .ok (s, [])
  | cw :: rest =>
    match transact s cw with
    | .error e => .error e
    | .ok (t, d) =>
      match transactAll t rest with
      | .error e => .error e
      | .ok (u, ds) => .ok (u, d :: ds)

/-- Load, one ENC or DEC, read back, clear (R175, R177): the state after the call and the bytes read. -/
def runCall (s : State) (key state : List Byte) (i : Instr) : Except HostError (State × List Byte) :=
  match transactAll s (loadCommands key state ++ wordOf i) with
  | .error e => .error e
  | .ok (t, _) =>
    match transactAll t (readCommands state.length) with
    | .error e => .error e
    | .ok (u, ds) =>
      match transactAll u clearCommands with
      | .error e => .error e
      | .ok (v, _) => .ok (v, ds.map fun d => d.extractLsb' 0 8)

/-- Host `encrypt(plaintext, key, rounds)` (R175). -/
def hostEncrypt (policy : WideCharPolicy) (s : State) (plaintext key : List Nat) (rounds : Int) :
    Except HostError (State × List Char) :=
  match checkCall s.cap plaintext.length key.length rounds, textToBytes policy plaintext,
    keyToBytes key with
  | .error e, _, _ => .error e
  | .ok _, .error e, _ => .error e
  | .ok _, .ok _, .error e => .error e
  | .ok _, .ok p, .ok k =>
    match runCall s k p (.enc (BitVec.ofInt 16 rounds)) with
    | .error e => .error e
    | .ok (t, bytes) => .ok (t, bytesToHex bytes)

/-- Host `decrypt(ciphertext, key, rounds)` (R177). The hex string is checked before its length in bytes
is (R173: the empty string is well-formed and leads to the empty-State error). DESIGN CHOICE (log entry
15): it is checked before the rounds too, so malformed hex with a negative round count reports
`malformedHex`. -/
def hostDecrypt (s : State) (ciphertext : List Char) (key : List Nat) (rounds : Int) :
    Except HostError (State × List Nat) :=
  match hexToBytes ciphertext with
  | .error e => .error e
  | .ok c =>
    match checkCall s.cap c.length key.length rounds, keyToBytes key with
    | .error e, _ => .error e
    | .ok _, .error e => .error e
    | .ok _, .ok k =>
      match runCall s k c (.dec (BitVec.ofInt 16 rounds)) with
      | .error e => .error e
      | .ok (t, bytes) => .ok (t, bytesToText bytes)

end Sys2Proof.Machine
end

