-- ==== Sys2Proof/Machine/Assembler.lean ====
section
/-! DEFINITION. The assembler syntax of the spec (30_encoding.md R70): one command per line, `MNEMONIC`,
`MNEMONIC a` or `MNEMONIC a, b`, and `;` before a comment. MoveCodes have no line of their own. -/

namespace Sys2Proof.Machine

/-- Why a line is no command. -/
inductive AsmError where
  | unknownMnemonic
  /-- Operands too many or too few, not numbers, or wider than their fields. -/
  | badOperands
  deriving DecidableEq, Repr

/-- Digits of a base, most significant first, after those already read. -/
def readDigits (base acc : Nat) (cs : List Char) : Option Nat :=
  match cs with
  | [] => some acc
  | c :: rest =>
    match hexValue c with
    | some d => if d.toNat < base then readDigits base (acc * base + d.toNat) rest else none
    | none => none

/-- "operands in decimal, or hexadecimal with `0x`" (R70). -/
def readNumber (cs : List Char) : Option Nat :=
  match cs with
  | [] => none
  | '0' :: 'x' :: c :: rest => readDigits 16 0 (c :: rest)
  | c :: rest => readDigits 10 0 (c :: rest)

/-- "or (for a MoveCode) binary with `0b`" (R70). -/
def readCode (cs : List Char) : Option Nat :=
  match cs with
  | '0' :: 'b' :: c :: rest => readDigits 2 0 (c :: rest)
  | _ => readNumber cs

/-- A number as a field of `w` bits, if it fits. -/
def fitField (w : Nat) (n : Option Nat) : Option (BitVec w) :=
  n.bind fun v => if v < 2 ^ w then some (BitVec.ofNat w v) else none

/-- A line with no operands. -/
def asmNone (i : Instr) (ops : List (List Char)) : Option Instr :=
  if ops = [] then some i else none

/-- A line whose one operand is the byte in `b`. -/
def asmByte (f : Byte → Instr) (ops : List (List Char)) : Option Instr :=
  match ops with
  | [v] => (fitField 8 (readNumber v)).map f
  | _ => none

/-- A line whose one operand is `a`. -/
def asmFirst (f : Half → Instr) (ops : List (List Char)) : Option Instr :=
  match ops with
  | [a] => (fitField 16 (readNumber a)).map f
  | _ => none

/-- A line with a round and a MoveCode. -/
def asmCode (f : Half → Code → Instr) (ops : List (List Char)) : Option Instr :=
  match ops with
  | [a, c] => (fitField 16 (readNumber a)).bind fun x => (fitField 4 (readCode c)).map (f x)
  | _ => none

/-- A line with `a` and `b`. -/
def asmBoth (f : Half → Half → Instr) (ops : List (List Char)) : Option Instr :=
  match ops with
  | [a, b] => (fitField 16 (readNumber a)).bind fun x => (fitField 16 (readNumber b)).map (f x)
  | _ => none

/-- The mnemonics of units 0 and 1 (30_encoding.md R62) and the operands their lines take. -/
def asmUnits01 : List (List Char × (List (List Char) → Option Instr)) :=
  [(['N', 'O', 'P'], asmNone .nop), (['C', 'L', 'R', 'S'], asmNone .clrs),
   (['P', 'U', 'S', 'H', 'S'], asmByte .pushs), (['R', 'D', 'S'], asmFirst .rds),
   (['C', 'L', 'R', 'K'], asmNone .clrk), (['P', 'U', 'S', 'H', 'K'], asmByte .pushk),
   (['G', 'E', 'T', 'L', 'E', 'N'], asmNone .getlen),
   (['G', 'E', 'T', 'K', 'L', 'E', 'N'], asmNone .getklen),
   (['G', 'E', 'T', 'E', 'R', 'R'], asmNone .geterr),
   (['C', 'L', 'R', 'E', 'R', 'R'], asmNone .clrerr), (['R', 'O', 'T', 'R'], asmBoth .rotr),
   (['R', 'O', 'T', 'L'], asmBoth .rotl), (['S', 'W', 'A', 'P'], asmBoth .swap),
   (['R', 'O', 'T', 'S'], asmNone .rots), (['U', 'R', 'O', 'T', 'S'], asmNone .urots)]

/-- The mnemonics of units 2 to 5. -/
def asmUnits25 : List (List Char × (List (List Char) → Option Instr)) :=
  [(['M', 'O', 'V', 'E'], asmCode .move), (['R', 'M', 'O', 'V', 'E'], asmCode .rmove),
   (['G', 'E', 'T', 'M', 'C'], asmFirst .getmc), (['G', 'E', 'T', 'R', 'K'], asmBoth .getrk),
   (['G', 'E', 'T', 'S', 'H', 'I', 'F', 'T'], asmNone .getshift),
   (['D', 'I', 'F', 'F'], asmFirst .diff), (['M', 'I', 'X'], asmNone .mix),
   (['R', 'M', 'I', 'X'], asmNone .rmix), (['R', 'N', 'D', 'F'], asmFirst .rndf),
   (['R', 'N', 'D', 'R'], asmFirst .rndr), (['E', 'N', 'C'], asmFirst .enc),
   (['D', 'E', 'C'], asmFirst .dec)]

/-- A space or a tab. -/
def isBlank (c : Char) : Bool := c == ' ' || c == '\t'

/-- Characters without the blanks around them. -/
def trimBlanks (cs : List Char) : List Char :=
  ((cs.dropWhile isBlank).reverse.dropWhile isBlank).reverse

/-- The pieces between commas. -/
def splitCommas (cs : List Char) : List (List Char) :=
  match cs with
  | [] => [[]]
  | c :: rest =>
    match splitCommas rest with
    | [] => [[c]]
    | w :: ws => if c = ',' then [] :: w :: ws else (c :: w) :: ws

/-- The operands of a line: none, or the pieces between its commas. -/
def splitOperands (cs : List Char) : List (List Char) :=
  if trimBlanks cs = [] then [] else (splitCommas cs).map trimBlanks

/-- The instruction of a line; none for a line with nothing before its comment. -/
def assembleInstr (line : List Char) : Except AsmError (Option Instr) :=
  let text := trimBlanks (line.takeWhile fun c => c != ';')
  let name := text.takeWhile fun c => !isBlank c
  if text = [] then .ok none
  else
    match (asmUnits01 ++ asmUnits25).lookup name with
    | none => .error .unknownMnemonic
    | some build =>
      match build (splitOperands (text.drop name.length)) with
      | some i => .ok (some i)
      | none => .error .badOperands

/-- The command words of a line: one, or none for an empty line. -/
def assembleLine (line : List Char) : Except AsmError (List CmdWord) :=
  match assembleInstr line with
  | .error e => .error e
  | .ok none => .ok []
  | .ok (some i) => .ok (wordOf i)

/-- A field as a hexadecimal operand, after a blank. -/
def hexOperand (v : Half) : List Char :=
  [' ', '0', 'x'] ++ bytesToHex [v.extractLsb' 8 8, v.extractLsb' 0 8]

/-- The line of a command, its operands in hexadecimal; a MoveCode has no line. -/
def asmText (i : Instr) : List Char :=
  match i with
  | .nop => ['N', 'O', 'P']
  | .clrs => ['C', 'L', 'R', 'S']
  | .pushs v => ['P', 'U', 'S', 'H', 'S'] ++ hexOperand (0#8 ++ v)
  | .rds a => ['R', 'D', 'S'] ++ hexOperand a
  | .clrk => ['C', 'L', 'R', 'K']
  | .pushk v => ['P', 'U', 'S', 'H', 'K'] ++ hexOperand (0#8 ++ v)
  | .getlen => ['G', 'E', 'T', 'L', 'E', 'N']
  | .getklen => ['G', 'E', 'T', 'K', 'L', 'E', 'N']
  | .geterr => ['G', 'E', 'T', 'E', 'R', 'R']
  | .clrerr => ['C', 'L', 'R', 'E', 'R', 'R']
  | .rotr a b => ['R', 'O', 'T', 'R'] ++ hexOperand a ++ [','] ++ hexOperand b
  | .rotl a b => ['R', 'O', 'T', 'L'] ++ hexOperand a ++ [','] ++ hexOperand b
  | .swap a b => ['S', 'W', 'A', 'P'] ++ hexOperand a ++ [','] ++ hexOperand b
  | .rots => ['R', 'O', 'T', 'S']
  | .urots => ['U', 'R', 'O', 'T', 'S']
  | .move a c => ['M', 'O', 'V', 'E'] ++ hexOperand a ++ [','] ++ hexOperand (0#12 ++ c)
  | .rmove a c => ['R', 'M', 'O', 'V', 'E'] ++ hexOperand a ++ [','] ++ hexOperand (0#12 ++ c)
  | .getmc a => ['G', 'E', 'T', 'M', 'C'] ++ hexOperand a
  | .getrk a b => ['G', 'E', 'T', 'R', 'K'] ++ hexOperand a ++ [','] ++ hexOperand b
  | .getshift => ['G', 'E', 'T', 'S', 'H', 'I', 'F', 'T']
  | .diff a => ['D', 'I', 'F', 'F'] ++ hexOperand a
  | .mix => ['M', 'I', 'X']
  | .rmix => ['R', 'M', 'I', 'X']
  | .rndf a => ['R', 'N', 'D', 'F'] ++ hexOperand a
  | .rndr a => ['R', 'N', 'D', 'R'] ++ hexOperand a
  | .enc a => ['E', 'N', 'C'] ++ hexOperand a
  | .dec a => ['D', 'E', 'C'] ++ hexOperand a
  | .mc0 | .mc1 | .mc2 | .mc3 | .mc4 | .mc5 | .mc6 | .mc7 | .mc8 | .mc9 | .mc10 | .mc11 | .mc12
  | .mc13 | .mc14 | .mc15 => []

end Sys2Proof.Machine
end

