-- ==== Sys2Proof/Safety.lean ====
section
/-! DEFINITION. The terms claims are stated in: the invariants of 10_state.md R32, the end of a command,
the fault table of 60_exceptions.md R182, the expansions of 30_encoding.md R71 and the number of
micro-operations of 45_orchestrator.md R158. -/

namespace Sys2Proof.Machine

/-- Which phases a macro command goes through, with the round indices it uses (45 R158, R159). -/
def Macro.allows (m : Macro) (phase : Phase) (r : Nat) : Bool :=
  match m, phase with
  | .rndf, .move | .rndf, .diff | .rndf, .mix => r ≤ 65535
  | .rndr, .rmix | .rndr, .rdiff | .rndr, .rmove => r ≤ 65535
  | .enc rounds, .rot => r = 0 && rounds ≤ 65535
  | .enc rounds, .move | .enc rounds, .diff | .enc rounds, .mix => r < rounds && rounds ≤ 65535
  | .dec rounds, .rmix | .dec rounds, .rdiff | .dec rounds, .rmove => r < rounds && rounds ≤ 65535
  | .dec rounds, .unrot => r = 0 && rounds ≤ 65535
  | _, _ => false

/-- A running sequencer passed validation and its counters are in their bounds (45 R158 to R160). -/
def State.seqOk (s : State) : Bool :=
  match s.seq with
  | .idle => true
  | .running m phase r j =>
    decide (0 < s.LEN) && decide (0 < s.KLEN) && m.allows phase r &&
      (phase ≠ .move && phase ≠ .rmove || decide (j < nmc s.K))

/-- The invariant of the machine: the parameters are legal (00 R6), the buffers fit (10 R32), the
sequencer is idle or consistent. -/
abbrev State.Inv (s : State) : Prop := s.cap.wf ∧ Memory.wf s ∧ s.seqOk = true

/-- `s` after a command that left `S`, `K` and `ERR` as given, answered `r` and changed nothing else. -/
def State.endsWith (s : State) (S K : List Byte) (err : ErrCode) (r : Response) : State :=
  { cap := s.cap, S := S, K := K, err := err, seq := .idle, port := s.port, out := s.out ++ [r] }

/-- `s` after a command that raised `e` (60 R184). -/
def State.faultsWith (s : State) (e : ErrCode) : State :=
  s.endsWith s.S s.K (if s.err = .ok then e else s.err) { err := e, data := 0 }

/-- A command of the port, not a MoveCode. -/
def isCommand (i : Instr) : Bool :=
  match encode i with
  | .command _ => true
  | .moveCode _ => false

/-- The code a command ends with: the table of 60 R182 in the order of R183. -/
def expectedError (i : Instr) (s : State) : ErrCode :=
  match i with
  | .swap _ _ | .rots | .urots | .move _ _ | .rmove _ _ | .getshift =>
    if s.LEN = 0 then .emptyState else .ok
  | .rndf _ | .rndr _ | .enc _ | .dec _ =>
    if s.LEN = 0 then .emptyState else if s.KLEN = 0 then .emptyKey else .ok
  | .diff _ => if s.KLEN = 0 then .emptyKey else .ok
  | .getrk _ i => if s.KLEN = 0 then .emptyKey else if i.toNat ≥ s.LEN then .range else .ok
  | .rds a => if a.toNat ≥ s.LEN then .range else .ok
  | .getmc j => if j.toNat ≥ 2 * s.KLEN then .range else .ok
  | .pushs _ => if s.LEN = s.cap.nmax then .overflow else .ok
  | .pushk _ => if s.KLEN = s.cap.kmax then .overflow else .ok
  | .nop | .clrs | .clrk | .getlen | .getklen | .geterr | .clrerr | .rotr _ _ | .rotl _ _ | .mix
  | .rmix => .ok
  | .mc0 | .mc1 | .mc2 | .mc3 | .mc4 | .mc5 | .mc6 | .mc7 | .mc8 | .mc9 | .mc10 | .mc11 | .mc12
  | .mc13 | .mc14 | .mc15 => .ok

/-- The encoding part of a command's rule: the opcode, the operand fields that are legal for it (30 R62,
R64) with the instruction they give, and `ERR_ILLEGAL` for the others. -/
def encodedAs (op : Byte) (legal : Half → Half → Prop) (i : Half → Half → Instr) : Prop :=
  ∀ a b, (legal a b → decode (CmdWord.mk op a b) = .ok (i a b)) ∧
    (¬ legal a b → ∀ s, runCommand (CmdWord.mk op a b) s = .next (s.faultsWith .illegal))

/-- No operands: `a` and `b` reserved. -/
def encodedPlain (op : Byte) (i : Instr) : Prop :=
  encodedAs op (fun a b => a = 0 ∧ b = 0) fun _ _ => i

/-- A byte in `b[7:0]`: `a` and `b[15:8]` reserved. -/
def encodedByte (op : Byte) (f : Byte → Instr) : Prop :=
  encodedAs op (fun a b => a = 0 ∧ b.toNat < 256) fun _ b => f (BitVec.ofNat 8 b.toNat)

/-- One operand `a`: `b` reserved. -/
def encodedFirst (op : Byte) (f : Half → Instr) : Prop :=
  encodedAs op (fun _ b => b = 0) fun a _ => f a

/-- A round `a` and a MoveCode in `b[3:0]`: `b[15:4]` reserved. -/
def encodedCode (op : Byte) (f : Half → Code → Instr) : Prop :=
  encodedAs op (fun _ b => b.toNat < 16) fun a b => f a (BitVec.ofNat 4 b.toNat)

/-- Operands `a` and `b`: nothing reserved. -/
def encodedBoth (op : Byte) (f : Half → Half → Instr) : Prop :=
  encodedAs op (fun _ _ => True) f

/-- Commands one after another, each on the state the one before it left. -/
def runInstrs (is : List Instr) (s : State) : Result :=
  match is with
  | [] => .next s
  | i :: rest =>
    match exec i s with
    | .next t => runInstrs rest t
    | .fault f => .fault f
    | .refused r => .refused r

/-- The expansion of `RNDF r` (30 R71). -/
def expandRndf (K : List Byte) (r : Half) : List Instr :=
  (moveCodes K).map (Instr.move r) ++ [.diff r, .mix]

/-- The expansion of `RNDR r` (30 R71). -/
def expandRndr (K : List Byte) (r : Half) : List Instr :=
  [.rmix, .diff r] ++ ((moveCodes K).map (Instr.rmove r)).reverse

/-- The expansion of `ENC n` (30 R71). -/
def expandEnc (n : Half) : List Instr :=
  .rots :: (List.range n.toNat).map fun r => .rndf (BitVec.ofNat 16 r)

/-- The expansion of `DEC n` (30 R71). -/
def expandDec (n : Half) : List Instr :=
  ((List.range n.toNat).map fun r => .rndr (BitVec.ofNat 16 r)).reverse ++ [.urots]

/-- The micro-operations left of the command in progress (45 R158, R159). -/
def State.remaining (s : State) : Nat :=
  match s.seq with
  | .idle => 0
  | .running m phase r j =>
    let n := nmc s.K
    let inRound :=
      match phase with
      | .rot | .unrot => 0
      | .move => (n - j) + 2
      | .diff => 2
      | .mix => 1
      | .rmix => n + 2
      | .rdiff => n + 1
      | .rmove => j + 1
    match m, phase with
    | .enc rounds, .rot => 1 + rounds * (n + 2)
    | .enc rounds, _ => inRound + (rounds - 1 - r) * (n + 2)
    | .dec _, .unrot => 1
    | .dec _, _ => inRound + r * (n + 2) + 1
    | _, _ => inRound

/-- One step of the in-place loop of 44 R141 at position `i`. -/
def mixAt (s : List Byte) (i : Nat) : List Byte :=
  s.set i (s.getD i 0 * 17 + s.getD ((i + s.length - 1) % s.length) 0)

/-- One step of the in-place loop of 44 R142 at position `i`. -/
def unmixAt (s : List Byte) (i : Nat) : List Byte :=
  s.set i ((s.getD i 0 - s.getD ((i + s.length - 1) % s.length) 0) * 241)

end Sys2Proof.Machine
end

