-- ==== Sys2Proof/Certificates/Slice0/Obligations.lean ====
section
/-! DEFINITION. The statements for the provers, rule by rule of spec/. Where a statement says
`exec i s = .next (s.endsWith …)`, that equation is also the instruction's frame: `endsWith` keeps `cap`
and `port`, ends the command and appends one response. The `encoded…` clauses give a command's opcode,
operand fields and `ERR_ILLEGAL` fault. -/

open Sys2Proof Sys2Proof.Machine

/-! ### Encoding -/

/-- 30 R60, R62, R64, R66: no bit of an encoding is dropped. -/
def Obligations.DecodeOfEncodeIsIdentity : Prop :=
  ∀ i : Instr, decodeEncoding (encode i) = .ok i

/-- 30 R65: each legal word has one meaning and the encoder gives that word back. -/
def Obligations.EncodeOfDecodeIsIdentity : Prop :=
  (∀ (cw : CmdWord) (i : Instr), decode cw = .ok i → encode i = .command cw) ∧
    ∀ c : Code, encode (decodeMoveCode c) = .moveCode c

/-- 30 R65: the decoder accepts exactly the words that fit a row of the opcode table. -/
def Obligations.DecoderAcceptsExactlyTableWords : Prop :=
  ∀ cw : CmdWord, (∃ i, decode cw = .ok i) ↔ CmdWord.wellFormed cw = true

/-- The words of 95 V1 to V6, `DIFF 1`, and all eight illegal words listed after V6. -/
def Obligations.WrittenWordsDecode : Prop :=
  decode 0x0000000000 = .ok .nop ∧ decode 0x0200000049 = .ok (.pushs 0x49) ∧
  decode 0x1000020006 = .ok (.rotr 2 6) ∧ decode 0x2000030005 = .ok (.move 3 5) ∧
  decode 0x52000A0000 = .ok (.enc 10) ∧ decode 0x3100010004 = .ok (.getrk 1 4) ∧
  decode 0x4000010000 = .ok (.diff 1) ∧
  decode 0x0A00000000 = .error .unknownOpcode ∧ decode 0xFF00000000 = .error .unknownOpcode ∧
  decode 0x0300000001 = .error .reservedBits ∧ decode 0x0000000001 = .error .reservedBits ∧
  decode 0x0200000100 = .error .reservedBits ∧ decode 0x0200010000 = .error .reservedBits ∧
  decode 0x2000000010 = .error .reservedBits ∧ decode 0x5200010001 = .error .reservedBits

/-- The table of 30 R68, its range, direction and swap columns as functions of the code's value. -/
def Obligations.MoveCodeTable : Prop :=
  ∀ (c : Code) (n : Nat),
    (moveLo c n, moveHi c n) = (if 8 ≤ c.toNat then (0, n / 2) else (n / 2, n)) ∧
    (forwardClockwise c = true ↔ c.toNat ∈ [2, 3, 4, 5, 10, 11, 12, 13]) ∧
    reverseClockwise c = !forwardClockwise c ∧
    (codeB3 c = true ↔ c.toNat % 2 = 1)

/-- 30 R70: the line `asmText` writes for a command assembles to its command word. That it gives each
operand as `0x` and four lower-case digits, and that the assembler takes them, is the model's choice (log
entry 20). -/
def Obligations.AssemblerGivesCommandWord : Prop :=
  ∀ (i : Instr) (cw : CmdWord), encode i = .command cw → assembleLine (asmText i) = .ok [cw]

/-! ### The port and the step -/

/-- 40 R80, 20 R47: the next command word is decoded and executed, and taken from the port. -/
def Obligations.StepRunsPresentedCommand : Prop :=
  ∀ (s : State) (cw : CmdWord) (rest : List PortEvent) (i : Instr),
    s.seq = .idle → s.port = .command cw :: rest → decode cw = .ok i →
    step s = exec i { s with port := rest }

/-- 20 R49, 45 R158, R159: in a move phase the step executes the MoveCode `MC[j]` of the current key. -/
def Obligations.StepRunsFetchedMoveCode : Prop :=
  ∀ (s : State) (m : Macro) (phase : Phase) (r j : Nat) (c : Code),
    s.seq = .running m phase r j → (phase = .move ∨ phase = .rmove) → (moveCodes s.K)[j]? = some c →
    (s.port = [] → step s = exec (decodeMoveCode c) s) ∧
    (∀ rest, s.port = .quiet :: rest → step s = exec (decodeMoveCode c) { s with port := rest })

/-- The placed instruction is the one the next step runs (log entry 8). -/
def Obligations.PlacedWordIsNextInstruction : Prop :=
  (∀ (s : State) (w : Nat) (i : Instr), decodeTableWord 40 w = some i →
    step (s.withFetchWord 40 w) = exec i { s with seq := .idle }) ∧
  (∀ (s : State) (w : Nat) (i : Instr), decodeTableWord 8 w = some i →
    ∃ S K, 0 < S.length ∧ (s.S ≠ [] → S = s.S) ∧
      step (s.withFetchWord 8 w) =
        exec i { s with S := S, K := K, seq := .running .rndf .move 0 0 })

/-- 30 R64, R65: a word that fits no row of the opcode table raises `ERR_ILLEGAL` and changes nothing
but `ERR`. -/
def Obligations.IllegalWordChangesOnlyErr : Prop :=
  ∀ (s : State) (cw : CmdWord) (rest : List PortEvent),
    s.seq = .idle → s.port = .command cw :: rest → CmdWord.wellFormed cw = false →
    step s = .next (State.faultsWith { s with port := rest } .illegal)

/-- 70 R200: Reset at any time, also while a command runs, which then gives no response. The cleared
buffers are the model's form of unreadable contents (log entry 1). -/
def Obligations.ResetEventClearsEngine : Prop :=
  ∀ (s : State) (rest : List PortEvent), s.port = .reset :: rest →
    ∃ t, step s = .next t ∧ t.LEN = 0 ∧ t.KLEN = 0 ∧ t.err.code = 0 ∧ t.seq = .idle ∧
      t.cap = s.cap ∧ t.port = rest ∧ t.out = s.out

/-- 10 R31: the values after reset. -/
def Obligations.ResetStateValues : Prop :=
  ∀ cap : Capacity,
    (State.resetWith cap).LEN = 0 ∧ (State.resetWith cap).KLEN = 0 ∧
    (State.resetWith cap).err.code = 0 ∧ (State.resetWith cap).seq = .idle

/-- 60 R192: between commands the engine is idle and keeps its state. -/
def Obligations.IdleEngineKeepsState : Prop :=
  ∀ s : State, s.seq = .idle →
    (s.port = [] → step s = .next s) ∧
    (∀ rest, s.port = .quiet :: rest → step s = .next { s with port := rest })

/-- 70 R207: a command word presented while a command runs is not taken before that command ends. -/
def Obligations.CommandsWaitForTheEngine : Prop :=
  ∀ (s t : State) (cw : CmdWord) (rest : List PortEvent),
    s.seq ≠ .idle → (s.port = .command cw :: rest ∨ s.port = .sequenced cw :: rest) →
    step s = .next t → t.port = s.port

/-! ### Buffer access and system commands -/

/-- 40 R81. -/
def Obligations.NopWritesNothing : Prop :=
  encodedPlain 0x00 .nop ∧
  ∀ s : State, exec .nop s = .next (s.endsWith s.S s.K s.err { err := .ok, data := 0 })

/-- 40 R82, R85. -/
def Obligations.ClearsEmptyOneBuffer : Prop :=
  encodedPlain 0x01 .clrs ∧ encodedPlain 0x04 .clrk ∧
  ∀ s : State,
    (∃ t, exec .clrs s = .next t ∧ t.LEN = 0 ∧
      t = s.endsWith t.S s.K s.err { err := .ok, data := 0 }) ∧
    (∃ t, exec .clrk s = .next t ∧ t.KLEN = 0 ∧
      t = s.endsWith s.S t.K s.err { err := .ok, data := 0 })

/-- 40 R83, R86: the byte lands at index `LEN` (`KLEN`) and the length grows by one; a full buffer
raises `ERR_OVERFLOW`. -/
def Obligations.PushAppendsOneByte : Prop :=
  encodedByte 0x02 .pushs ∧ encodedByte 0x05 .pushk ∧
  ∀ (s : State) (v : Byte),
    (s.LEN ≠ s.cap.nmax → ∃ t, exec (.pushs v) s = .next t ∧ t.LEN = s.LEN + 1 ∧
      t.S[s.LEN]? = some v ∧ (∀ k, k < s.LEN → t.S[k]? = s.S[k]?) ∧
      t = s.endsWith t.S s.K s.err { err := .ok, data := 0 }) ∧
    (s.LEN = s.cap.nmax → exec (.pushs v) s = .next (s.faultsWith .overflow)) ∧
    (s.KLEN ≠ s.cap.kmax → ∃ t, exec (.pushk v) s = .next t ∧ t.KLEN = s.KLEN + 1 ∧
      t.K[s.KLEN]? = some v ∧ (∀ k, k < s.KLEN → t.K[k]? = s.K[k]?) ∧
      t = s.endsWith s.S t.K s.err { err := .ok, data := 0 }) ∧
    (s.KLEN = s.cap.kmax → exec (.pushk v) s = .next (s.faultsWith .overflow))

/-- 40 R84: the byte read, zero-extended. -/
def Obligations.RdsReadsOneByte : Prop :=
  encodedFirst 0x03 .rds ∧
  ∀ (s : State) (a : Half),
    (∀ h : a.toNat < s.S.length, ∃ d : Half, d.toNat = (s.S[a.toNat]'h).toNat ∧
      exec (.rds a) s = .next (s.endsWith s.S s.K s.err { err := .ok, data := d })) ∧
    (s.S.length ≤ a.toNat → exec (.rds a) s = .next (s.faultsWith .range))

/-- 40 R87, R88, R89: the registers, whole in the data field, in states that meet the invariant. -/
def Obligations.StatusReadsAnswerRegisters : Prop :=
  encodedPlain 0x06 .getlen ∧ encodedPlain 0x07 .getklen ∧ encodedPlain 0x08 .geterr ∧
  ∀ s : State, s.Inv →
    (∃ d : Half, d.toNat = s.LEN ∧
      exec .getlen s = .next (s.endsWith s.S s.K s.err { err := .ok, data := d })) ∧
    (∃ d : Half, d.toNat = s.KLEN ∧
      exec .getklen s = .next (s.endsWith s.S s.K s.err { err := .ok, data := d })) ∧
    (∃ d : Half, d.toNat = s.err.code.toNat ∧
      exec .geterr s = .next (s.endsWith s.S s.K s.err { err := .ok, data := d }))

/-- 40 R90. -/
def Obligations.ClrerrClearsOnlyErr : Prop :=
  encodedPlain 0x09 .clrerr ∧
  ∀ s : State, exec .clrerr s = .next (s.endsWith s.S s.K .ok { err := .ok, data := 0 })

/-! ### Permutation rotator -/

/-- 41 R105 with the element movement of R100: the last of the range to its front, the others up by one;
outside the guard nothing moves and the command still completes. -/
def Obligations.RotrMovesRange : Prop :=
  encodedBoth 0x10 .rotr ∧
  ∀ (s : State) (a b : Half), ∃ t, exec (.rotr a b) s = .next t ∧
    t = s.endsWith t.S s.K s.err { err := .ok, data := 0 } ∧ t.LEN = s.LEN ∧
    (a.toNat < b.toNat ∧ b.toNat ≤ s.LEN →
      t.S[a.toNat]? = s.S[b.toNat - 1]? ∧
      (∀ k, a.toNat < k → k < b.toNat → t.S[k]? = s.S[k - 1]?) ∧
      ∀ k, k < a.toNat ∨ b.toNat ≤ k → t.S[k]? = s.S[k]?) ∧
    (s.LEN < b.toNat ∨ b.toNat ≤ a.toNat → t.S = s.S)

/-- 41 R106 with the element movement of R101. -/
def Obligations.RotlMovesRange : Prop :=
  encodedBoth 0x11 .rotl ∧
  ∀ (s : State) (a b : Half), ∃ t, exec (.rotl a b) s = .next t ∧
    t = s.endsWith t.S s.K s.err { err := .ok, data := 0 } ∧ t.LEN = s.LEN ∧
    (a.toNat < b.toNat ∧ b.toNat ≤ s.LEN →
      t.S[b.toNat - 1]? = s.S[a.toNat]? ∧
      (∀ k, a.toNat ≤ k → k + 1 < b.toNat → t.S[k]? = s.S[k + 1]?) ∧
      ∀ k, k < a.toNat ∨ b.toNat ≤ k → t.S[k]? = s.S[k]?) ∧
    (s.LEN < b.toNat ∨ b.toNat ≤ a.toNat → t.S = s.S)

/-- 41 R107 with R102: positions modulo `LEN`; an empty State raises `ERR_EMPTY_STATE`. -/
def Obligations.SwapExchangesTwoPositions : Prop :=
  encodedBoth 0x12 .swap ∧
  ∀ (s : State) (a b : Half),
    (0 < s.LEN → ∃ t, exec (.swap a b) s = .next t ∧
      t = s.endsWith t.S s.K s.err { err := .ok, data := 0 } ∧ t.LEN = s.LEN ∧
      t.S[a.toNat % s.LEN]? = s.S[b.toNat % s.LEN]? ∧
      t.S[b.toNat % s.LEN]? = s.S[a.toNat % s.LEN]? ∧
      ∀ k, k ≠ a.toNat % s.LEN → k ≠ b.toNat % s.LEN → t.S[k]? = s.S[k]?) ∧
    (s.LEN = 0 → exec (.swap a b) s = .next (s.faultsWith .emptyState))

/-- 41 R108, R109: `SHIFT = KSUM mod LEN`, element `i` goes to `(i + SHIFT) mod LEN` (R103) and back
(R104); with an empty key nothing moves; an empty State raises `ERR_EMPTY_STATE`. -/
def Obligations.WholeStateRotations : Prop :=
  encodedPlain 0x13 .rots ∧ encodedPlain 0x14 .urots ∧
  (∀ s : State, 0 < s.LEN →
    (∃ t, exec .rots s = .next t ∧
      t = s.endsWith t.S s.K s.err { err := .ok, data := 0 } ∧ t.LEN = s.LEN ∧
      (∀ k, k < s.LEN → t.S[(k + ksum s.K % s.LEN) % s.LEN]? = s.S[k]?) ∧
      (s.K = [] → t.S = s.S)) ∧
    (∃ t, exec .urots s = .next t ∧
      t = s.endsWith t.S s.K s.err { err := .ok, data := 0 } ∧ t.LEN = s.LEN ∧
      (∀ k, k < s.LEN → t.S[k]? = s.S[(k + ksum s.K % s.LEN) % s.LEN]?) ∧
      (s.K = [] → t.S = s.S))) ∧
  ∀ s : State, s.LEN = 0 →
    exec .rots s = .next (s.faultsWith .emptyState) ∧
    exec .urots s = .next (s.faultsWith .emptyState)

/-- 41 R110 (marked derived there), the inverse laws of the functions and of the commands. -/
def Obligations.PrimitivesInvert : Prop :=
  (∀ s : List Byte,
    (∀ a b : Int, rotateLeft (rotateRight s a b) a b = s ∧ rotateRight (rotateLeft s a b) a b = s) ∧
    (s ≠ [] → ∀ i j, swap (swap s i j) i j = s) ∧
    (∀ k, k < s.length → unrotateState (rotateState s k) k = s)) ∧
  ∀ (s : State) (a b : Half),
    (∃ t u, exec (.rotr a b) s = .next t ∧ exec (.rotl a b) t = .next u ∧ u.S = s.S) ∧
    (0 < s.LEN →
      (∃ t u, exec (.swap a b) s = .next t ∧ exec (.swap a b) t = .next u ∧ u.S = s.S) ∧
      ∃ t u, exec .rots s = .next t ∧ exec .urots t = .next u ∧ u.S = s.S)

/-- 41 R111, 42 R126: rotations, swap and moves are permutations of positions. Where the spec gives swap,
the moves and the whole-State rotations no value (an empty sequence, a shift at or above the length; R102,
R103, R121) the clause is about the model's choice (log entry 13). -/
def Obligations.MovesPermuteBytes : Prop :=
  ∀ s : List Byte,
    (∀ a b : Int, (rotateRight s a b).Perm s ∧ (rotateLeft s a b).Perm s) ∧
    (∀ i j, (swap s i j).Perm s) ∧
    (∀ k, (rotateState s k).Perm s ∧ (unrotateState s k).Perm s) ∧
    (∀ (c : Code) (r : Nat), (applyMove s c r).Perm s ∧ (reverseMove s c r).Perm s)

/-! ### Move layer and MoveCodes -/

/-- 42 R123, R124 with R121, R122 written out from the bits of the code; an empty State raises
`ERR_EMPTY_STATE` whatever the code. -/
def Obligations.MovesRotateAndSwap : Prop :=
  encodedCode 0x20 .move ∧ encodedCode 0x21 .rmove ∧
  (∀ (s : State) (round : Half) (c : Code), s.LEN = 0 →
    exec (.move round c) s = .next (s.faultsWith .emptyState) ∧
    exec (.rmove round c) s = .next (s.faultsWith .emptyState)) ∧
  ∀ (s : State) (round : Half) (c : Code), 0 < s.LEN →
    let lo : Int := if c.getLsbD 3 then 0 else (s.LEN / 2 : Nat)
    let hi : Int := if c.getLsbD 3 then (s.LEN / 2 : Nat) else (s.LEN : Nat)
    let i := (round.toNat + c.toNat) % s.LEN
    let swapped := fun S => if c.getLsbD 0 then swap S i ((i + 1) % s.LEN) else S
    let rotated := fun (right : Bool) S => if right then rotateRight S lo hi else rotateLeft S lo hi
    exec (.move round c) s = .next (s.endsWith
      (swapped (rotated (c.getLsbD 2 ^^ c.getLsbD 1) s.S)) s.K s.err { err := .ok, data := 0 }) ∧
    exec (.rmove round c) s = .next (s.endsWith
      (rotated ((!c.getLsbD 2) ^^ c.getLsbD 1) (swapped s.S)) s.K s.err { err := .ok, data := 0 })

/-- 42 R125, and in command terms: `MOVE r,c` then `RMOVE r,c` restores S. -/
def Obligations.MoveIsInvertible : Prop :=
  (∀ (s : List Byte) (c : Code) (r : Nat), s ≠ [] →
    reverseMove (applyMove s c r) c r = s ∧ applyMove (reverseMove s c r) c r = s) ∧
  (∀ (s : State) (r : Half) (c : Code), 0 < s.LEN →
    ∃ t u, exec (.move r c) s = .next t ∧ exec (.rmove r c) t = .next u ∧ u.S = s.S)

/-- 42 R123 corner case `LEN = 1`: every move completes and leaves the State unchanged. -/
def Obligations.LengthOneMovesChangeNothing : Prop :=
  ∀ (s : State) (r : Half) (c : Code), s.LEN = 1 →
    exec (.move r c) s = .next (s.endsWith s.S s.K s.err { err := .ok, data := 0 }) ∧
    exec (.rmove r c) s = .next (s.endsWith s.S s.K s.err { err := .ok, data := 0 })

/-- 45 R158, 30 R69: each MoveCode `MC_0` to `MC_15` (`decodeMoveCode c` over all `c`) in a forward round
applies its move with the round index of the sequencer and goes on to the next code, or to `DIFF(r)`.
That a MoveCode is an instruction is the model's choice (log entry 6), and so is what it does for a command
that no run has in that phase (log entry 7). -/
def Obligations.MoveCodeInForwardRound : Prop :=
  ∀ (s : State) (c : Code) (m : Macro) (r j : Nat), 0 < s.LEN → s.seq = .running m .move r j →
    exec (decodeMoveCode c) s = .next
      { s with
        S := applyMove s.S c r
        seq := if j + 1 < 2 * s.KLEN then .running m .move r (j + 1) else .running m .diff r 0 }

/-- 45 R159: each MoveCode in a reverse round, before the first code of the round is reached, applies
the reverse move and steps down (log entry 6; for a command that no run has in that phase, log entry 7). -/
def Obligations.MoveCodeInReverseRound : Prop :=
  ∀ (s : State) (c : Code) (m : Macro) (r j : Nat), 0 < s.LEN →
    s.seq = .running m .rmove r (j + 1) →
    exec (decodeMoveCode c) s = .next
      { s with S := reverseMove s.S c r, seq := .running m .rmove r j }

/-- 45 R159: after the code `MC[0]` of a reverse round RNDR ends and DEC goes on, to the round below or
to `UNROT`. -/
def Obligations.MoveCodeEndsReverseRound : Prop :=
  ∀ (s : State) (c : Code) (r : Nat), 0 < s.LEN →
    (s.seq = .running .rndr .rmove r 0 →
      exec (decodeMoveCode c) s = .next
        (s.endsWith (reverseMove s.S c r) s.K s.err { err := .ok, data := 0 })) ∧
    (∀ rounds, s.seq = .running (.dec rounds) .rmove r 0 →
      exec (decodeMoveCode c) s = .next
        { s with
          S := reverseMove s.S c r
          seq := if r = 0 then .running (.dec rounds) .unrot 0 0
                 else .running (.dec rounds) .rmix (r - 1) 0 })

/-- A MoveCode outside a move phase stops the model, and on an empty State in one it raises
`ERR_EMPTY_STATE` (log entries 6 and 7). -/
def Obligations.MoveCodeStopsOutsideMovePhase : Prop :=
  ∀ (s : State) (c : Code),
    (s.seq = .idle → exec (decodeMoveCode c) s = .fault .noMoveInProgress) ∧
    (∀ m phase r j, s.seq = .running m phase r j → phase ≠ .move → phase ≠ .rmove →
      exec (decodeMoveCode c) s = .fault .noMoveInProgress) ∧
    (∀ m phase r j, s.seq = .running m phase r j → phase = .move ∨ phase = .rmove → s.LEN = 0 →
      exec (decodeMoveCode c) s = .next (s.faultsWith .emptyState))

/-! ### Key schedule -/

/-- 43 R135 with R131: the high nibble of a key byte first, then the low one. That order is what the spec
itself marks as general knowledge (R131, 93 G1; log entry 14). -/
def Obligations.GetmcReadsNibbles : Prop :=
  encodedFirst 0x30 .getmc ∧
  ∀ (s : State) (j : Half),
    (∀ h : j.toNat / 2 < s.K.length, ∃ d : Half,
      d.toNat = (if j.toNat % 2 = 0 then (s.K[j.toNat / 2]'h).toNat / 16
                 else (s.K[j.toNat / 2]'h).toNat % 16) ∧
      exec (.getmc j) s = .next (s.endsWith s.S s.K s.err { err := .ok, data := d })) ∧
    (2 * s.KLEN ≤ j.toNat → exec (.getmc j) s = .next (s.faultsWith .range))

/-- 43 R136 with the formula of R133: the round-key byte in unbounded arithmetic, reduced once; an empty
key outranks a position that is out of range. -/
def Obligations.GetrkAnswersRoundKeyByte : Prop :=
  encodedBoth 0x31 .getrk ∧
  ∀ (s : State) (r i : Half),
    (∀ hk : 0 < s.K.length, i.toNat < s.LEN →
      ∃ d : Half, d.toNat =
          ((s.K[i.toNat % s.K.length]'(Nat.mod_lt _ hk)).toNat * 31 + (s.K.map BitVec.toNat).sum +
            r.toNat + i.toNat) % 256 ∧
        exec (.getrk r i) s = .next (s.endsWith s.S s.K s.err { err := .ok, data := d })) ∧
    (s.KLEN = 0 → exec (.getrk r i) s = .next (s.faultsWith .emptyKey)) ∧
    (0 < s.KLEN → s.LEN ≤ i.toNat → exec (.getrk r i) s = .next (s.faultsWith .range))

/-- 43 R137 with R134: the unreduced sum of the key bytes modulo `LEN`. -/
def Obligations.GetshiftAnswersShift : Prop :=
  encodedPlain 0x32 .getshift ∧
  (∀ s : State, s.Inv → 0 < s.LEN →
    ∃ d : Half, d.toNat = (s.K.map BitVec.toNat).sum % s.LEN ∧
      exec .getshift s = .next (s.endsWith s.S s.K s.err { err := .ok, data := d })) ∧
  ∀ s : State, s.LEN = 0 → exec .getshift s = .next (s.faultsWith .emptyState)

/-- 43 R133, consequences it marks as derived: the next round's key is one more, rounds repeat after 256.
For the empty key, on which R133 gives no value, this is about the model's choice (log entry 13). -/
def Obligations.RoundKeysStepByOne : Prop :=
  ∀ (K : List Byte) (r i : Nat),
    roundKeyByte K (r + 1) i = roundKeyByte K r i + 1 ∧
    roundKeyByte K (r + 256) i = roundKeyByte K r i

/-! ### Diffusion and mixing -/

/-- 44 R144 with 43 R133: XOR with the round key, position by position; on an empty State nothing;
an empty key raises `ERR_EMPTY_KEY` whatever the State. -/
def Obligations.DiffXorsRoundKey : Prop :=
  encodedFirst 0x40 .diff ∧
  (∀ (s : State) (r : Half) (hk : 0 < s.K.length), ∃ t, exec (.diff r) s = .next t ∧
    t = s.endsWith t.S s.K s.err { err := .ok, data := 0 } ∧ t.LEN = s.LEN ∧
    ∀ (k : Nat) (h : k < s.S.length), t.S[k]? = some (s.S[k] ^^^ BitVec.ofNat 8
      ((s.K[k % s.K.length]'(Nat.mod_lt _ hk)).toNat * 31 + (s.K.map BitVec.toNat).sum +
        r.toNat + k))) ∧
  ∀ (s : State) (r : Half), s.KLEN = 0 → exec (.diff r) s = .next (s.faultsWith .emptyKey)

/-- 44 R145 with the equations of R141: `y[0] = 17 x[0] + x[n-1]`, `y[i] = 17 x[i] + y[i-1]`, modulo
256; at length 1 the neighbour is the byte itself. -/
def Obligations.MixEquations : Prop :=
  encodedPlain 0x41 .mix ∧
  ∀ s : State, ∃ t, exec .mix s = .next t ∧
    t = s.endsWith t.S s.K s.err { err := .ok, data := 0 } ∧ t.LEN = s.LEN ∧
    (∀ (hs : 0 < s.S.length) (ht : 0 < t.S.length),
      t.S[0].toNat = (17 * s.S[0].toNat + (s.S[s.S.length - 1]).toNat) % 256) ∧
    (∀ (k : Nat) (hs : k + 1 < s.S.length) (ht : k + 1 < t.S.length),
      t.S[k + 1].toNat = (17 * s.S[k + 1].toNat + t.S[k].toNat) % 256)

/-- 44 R146 with the equations of R142, the difference as a mathematical integer with floor modulus. -/
def Obligations.RmixEquations : Prop :=
  encodedPlain 0x42 .rmix ∧
  ∀ s : State, ∃ t, exec .rmix s = .next t ∧
    t = s.endsWith t.S s.K s.err { err := .ok, data := 0 } ∧ t.LEN = s.LEN ∧
    (∀ (k : Nat) (hs : k + 1 < s.S.length) (ht : k + 1 < t.S.length),
      ((t.S[k + 1].toNat : Nat) : Int) =
        (((s.S[k + 1].toNat : Nat) : Int) - ((s.S[k].toNat : Nat) : Int)) * 241 % 256) ∧
    (∀ (hs : 1 < s.S.length) (ht : 1 < t.S.length),
      ((t.S[0].toNat : Nat) : Int) =
        (((s.S[0].toNat : Nat) : Int) - (((t.S[t.S.length - 1]).toNat : Nat) : Int)) * 241 % 256) ∧
    (s.LEN = 1 → t.S = [0])

/-- 44 R141, R142, 70 R203: the passes give what the in-place loops give, ascending and descending. -/
def Obligations.MixPassesEqualInPlaceLoops : Prop :=
  ∀ s : List Byte,
    mix s = (List.range s.length).foldl mixAt s ∧
    reverseMix s = (List.range s.length).reverse.foldl unmixAt s

/-- 44 R147 and R143 (both marked derived there): the inverse laws and their exact domain, and 241 as the
one inverse of 17. -/
def Obligations.MixInverseLaws : Prop :=
  (∀ s k : List Byte, s.length = k.length → diffuse (diffuse s k) k = s) ∧
  (∀ s : List Byte, s.length ≠ 1 → reverseMix (mix s) = s ∧ mix (reverseMix s) = s) ∧
  (∀ x : Byte, mix [x] = [18 * x] ∧ reverseMix [x] = [0]) ∧
  ∀ x : Byte, 17 * x = 1 ↔ x = Config.inverse17

/-! ### Orchestrator -/

/-- 45 R154 to R157 with R150 to R153: with State and key loaded, the macro commands complete and apply
their function written out in the move, diffusion and mixing functions; an empty State outranks an empty
key. -/
def Obligations.MacroCommandsComplete : Prop :=
  encodedFirst 0x50 .rndf ∧ encodedFirst 0x51 .rndr ∧ encodedFirst 0x52 .enc ∧
  encodedFirst 0x53 .dec ∧
  (∀ (s : State) (n : Half) (i : Instr), i ∈ [.rndf n, .rndr n, .enc n, .dec n] →
    (s.LEN = 0 → exec i s = .next (s.faultsWith .emptyState)) ∧
    (0 < s.LEN → s.KLEN = 0 → exec i s = .next (s.faultsWith .emptyKey))) ∧
  ∀ (s : State) (n : Half), 0 < s.LEN → 0 < s.KLEN →
    let fwd := fun (S : List Byte) (r : Nat) =>
      let moved := (moveCodes s.K).foldl (fun T c => applyMove T c r) S
      mix (diffuse moved (roundKey s.K r moved.length))
    let bwd := fun (S : List Byte) (r : Nat) =>
      let unmixed := reverseMix S
      (moveCodes s.K).reverse.foldl (fun T c => reverseMove T c r)
        (diffuse unmixed (roundKey s.K r unmixed.length))
    let done := fun S => Host.Outcome.next (s.endsWith S s.K s.err { err := .ok, data := 0 })
    exec (.rndf n) s = done (fwd s.S n.toNat) ∧
    exec (.rndr n) s = done (bwd s.S n.toNat) ∧
    exec (.enc n) s =
      done ((List.range n.toNat).foldl fwd (rotateState s.S (ksum s.K % s.LEN))) ∧
    exec (.dec n) s =
      done (unrotateState ((List.range n.toNat).reverse.foldl bwd s.S) (ksum s.K % s.LEN))

/-- 45 R162 and 30 R71: a macro command has the same effect on S as its expansion issued as separate
commands, none of which fails. -/
def Obligations.MacroEqualsExpansion : Prop :=
  ∀ (s : State) (n : Half), 0 < s.LEN → 0 < s.KLEN →
    (∃ t u, exec (.rndf n) s = .next t ∧ runInstrs (expandRndf s.K n) s = .next u ∧ u.S = t.S ∧
      u.err = s.err ∧ u.out = s.out ++ (expandRndf s.K n).map fun _ => { err := .ok, data := 0 }) ∧
    (∃ t u, exec (.rndr n) s = .next t ∧ runInstrs (expandRndr s.K n) s = .next u ∧ u.S = t.S ∧
      u.err = s.err ∧ u.out = s.out ++ (expandRndr s.K n).map fun _ => { err := .ok, data := 0 }) ∧
    (∃ t u, exec (.enc n) s = .next t ∧ runInstrs (expandEnc n) s = .next u ∧ u.S = t.S ∧
      u.err = s.err ∧ u.out = s.out ++ (expandEnc n).map fun _ => { err := .ok, data := 0 }) ∧
    (∃ t u, exec (.dec n) s = .next t ∧ runInstrs (expandDec n) s = .next u ∧ u.S = t.S ∧
      u.err = s.err ∧ u.out = s.out ++ (expandDec n).map fun _ => { err := .ok, data := 0 })

/-- 45 R161 (marked derived there), 70 R210: ENC then DEC with the same key, length and rounds restores
the State, for every round count when `LEN >= 2` and for none when `LEN = 1`; likewise RNDF and RNDR. At
length 1 with a round or more, DEC leaves `RK(0,0)` whatever the plaintext. -/
def Obligations.DecInvertsEnc : Prop :=
  ∀ (s : State) (n : Half), 0 < s.KLEN →
    (2 ≤ s.LEN ∨ (s.LEN = 1 ∧ n = 0) →
      ∃ t u, exec (.enc n) s = .next t ∧ exec (.dec n) t = .next u ∧ u.S = s.S) ∧
    (2 ≤ s.LEN → ∃ t u, exec (.rndf n) s = .next t ∧ exec (.rndr n) t = .next u ∧ u.S = s.S) ∧
    (s.LEN = 1 → n ≠ 0 → ∃ t u, exec (.enc n) s = .next t ∧ exec (.dec n) t = .next u ∧
      u.S = [roundKeyByte s.K 0 0])

/-- 45 R158: followed one micro-operation a step, ENC takes its start and `1 + rounds * (NMC + 2)`
micro-operations, RNDF its start and `NMC + 2`, and they end in the state of the atomic command, with
its one response. The sequenced view is the model's (log entry 5). -/
def Obligations.ForwardSequenceRefinesCommand : Prop :=
  ∀ (s : State) (n : Half) (cw : CmdWord), s.seq = .idle → 0 < s.LEN → 0 < s.KLEN →
    s.port = [.sequenced cw] →
    (decode cw = .ok (.enc n) →
      ∃ t, exec (.enc n) { s with port := [] } = .next t ∧
        Host.Core.run Sys2Proof.core (1 + (1 + n.toNat * (2 * s.KLEN + 2))) s = .next t) ∧
    (decode cw = .ok (.rndf n) →
      ∃ t, exec (.rndf n) { s with port := [] } = .next t ∧
        Host.Core.run Sys2Proof.core (1 + (2 * s.KLEN + 2)) s = .next t)

/-- 45 R159: the same for DEC and RNDR. -/
def Obligations.ReverseSequenceRefinesCommand : Prop :=
  ∀ (s : State) (n : Half) (cw : CmdWord), s.seq = .idle → 0 < s.LEN → 0 < s.KLEN →
    s.port = [.sequenced cw] →
    (decode cw = .ok (.dec n) →
      ∃ t, exec (.dec n) { s with port := [] } = .next t ∧
        Host.Core.run Sys2Proof.core (1 + (1 + n.toNat * (2 * s.KLEN + 2))) s = .next t) ∧
    (decode cw = .ok (.rndr n) →
      ∃ t, exec (.rndr n) { s with port := [] } = .next t ∧
        Host.Core.run Sys2Proof.core (1 + (2 * s.KLEN + 2)) s = .next t)

/-! ### Faults -/

/-- 30 R61, 60 R189: every command, in every state, ends with exactly one response; its word has `err` in
bits 23..16, 0 iff the command completed, and data 0 when it faulted. -/
def Obligations.EveryCommandAnswersOnce : Prop :=
  ∀ (i : Instr) (s : State), isCommand i = true →
    ∃ t r, exec i s = .next t ∧ t.out = s.out ++ [r] ∧
      r.word.extractLsb' 16 8 = r.err.code ∧ r.word.extractLsb' 0 16 = r.data ∧
      (r.err.code = 0 ↔ r.err = .ok) ∧ (r.err ≠ .ok → r.data = 0)

/-- 60 R182, R183: the code a command ends with is the first that applies in the table, and an illegal
word ends with `ERR_ILLEGAL` whatever the buffers hold. -/
def Obligations.FaultCodesFollowTable : Prop :=
  (∀ (i : Instr) (s t : State) (r : Response), isCommand i = true →
    exec i s = .next t → t.out = s.out ++ [r] → r.err = expectedError i s) ∧
  ∀ (cw : CmdWord) (s : State), CmdWord.wellFormed cw = false →
    ∃ t, runCommand cw s = .next t ∧ t.out = s.out ++ [{ err := .illegal, data := 0 }]

/-- 60 R184: a fault leaves buffers and lengths as they were, latches `ERR` if it was 0, answers the
code with data 0, ends the command and changes nothing else; for every instruction, and for every step,
which also takes its event from the port. -/
def Obligations.FaultsArePrecise : Prop :=
  (∀ (i : Instr) (s t : State) (r : Response),
    exec i s = .next t → t.out = s.out ++ [r] → r.err ≠ .ok → t = s.faultsWith r.err) ∧
  ∀ (s t : State) (r : Response), step s = .next t → t.out = s.out ++ [r] → r.err ≠ .ok →
    t = State.faultsWith { s with port := t.port } r.err

/-- 60 R186, 10 R24: no instruction but CLRERR changes an `ERR` that is not 0, and one that ends
without an error leaves `ERR` as it is (40 R80). -/
def Obligations.ErrKeepsFirstCode : Prop :=
  ∀ (i : Instr) (s t : State), i ≠ .clrerr → exec i s = .next t →
    (s.err ≠ .ok → t.err = s.err) ∧
    (∀ r, t.out = s.out ++ [r] → r.err = .ok → t.err = s.err) ∧
    (t.out = s.out → t.err = s.err)

/-- 10 R21, R22, 20 R45: which instructions may write LEN, the key, and S. -/
def Obligations.OnlyTheListedInstructionsWrite : Prop :=
  ∀ (i : Instr) (s t : State), exec i s = .next t →
    (i ≠ .clrk → (∀ v, i ≠ .pushk v) → t.K = s.K) ∧
    (i ≠ .clrs → (∀ v, i ≠ .pushs v) → t.LEN = s.LEN) ∧
    (i = .nop ∨ (∃ a, i = .rds a) ∨ i = .clrk ∨ (∃ v, i = .pushk v) ∨ i = .getlen ∨ i = .getklen ∨
      i = .geterr ∨ i = .clrerr ∨ (∃ j, i = .getmc j) ∨ (∃ r p, i = .getrk r p) ∨ i = .getshift →
      t.S = s.S)

/-! ### The whole machine -/

/-- 10 R32: the invariants hold after reset, for all legal parameters and for the default ones. -/
def Obligations.ResetMeetsInvariant : Prop :=
  (∀ cap : Capacity, cap.wf → (State.resetWith cap).Inv) ∧ State.reset.Inv

/-- 10 R32: every step keeps the invariants. -/
def Obligations.StepKeepsInvariant : Prop :=
  ∀ s t : State, s.Inv → step s = .next t → t.Inv

/-- 60 R189, 45 R160: from every state that meets the invariants a step answers a next state. -/
def Obligations.StepNeverStops : Prop :=
  ∀ s : State, s.Inv → ∃ t, step s = .next t

/-- 60 R189, 45 R158: while a command runs and no Reset comes, each step leaves one micro-operation
fewer, and the engine is idle when none is left. -/
def Obligations.RunningCommandTerminates : Prop :=
  ∀ s t : State, s.Inv → s.seq ≠ .idle → (∀ rest, s.port ≠ .reset :: rest) → step s = .next t →
    t.remaining + 1 = s.remaining ∧ (t.remaining = 0 → t.seq = .idle)

/-- 70 R201: Reset is the only thing besides CLRS and CLRK that discards buffer contents, and the only
thing besides CLRERR that clears `ERR`. -/
def Obligations.OnlyResetAndClearsDiscard : Prop :=
  ∀ s t : State, step s = .next t →
    (∃ rest, s.port = .reset :: rest) ∨
    ((t.LEN < s.LEN → ∃ rest, s.port = .command 0x0100000000 :: rest ∨
        s.port = .sequenced 0x0100000000 :: rest) ∧
     (t.KLEN < s.KLEN → ∃ rest, s.port = .command 0x0400000000 :: rest ∨
        s.port = .sequenced 0x0400000000 :: rest) ∧
     (s.err ≠ .ok → t.err = .ok → ∃ rest, s.port = .command 0x0900000000 :: rest ∨
        s.port = .sequenced 0x0900000000 :: rest))

/-- 00 R6: the capacities are fixed for the machine (log entry 2). -/
def Obligations.CapacityNeverChanges : Prop :=
  ∀ s t : State, step s = .next t → t.cap = s.cap

/-! ### Host adapter -/

/-- 46 R172, R173: two digits a byte, `hexToBytes` is the inverse of `bytesToHex`, and it fails exactly on
an odd length or a character that is no hex digit. -/
def Obligations.HexCodecRoundTrip : Prop :=
  (∀ bytes : List Byte, hexToBytes (bytesToHex bytes) = .ok bytes ∧
    (bytesToHex bytes).length = 2 * bytes.length) ∧
  ∀ hex : List Char, hexToBytes hex = .error .malformedHex ↔
    hex.length % 2 = 1 ∨ ∃ c ∈ hex, hexValue c = none

/-- 46 R175, R177 with 45 R161: a call of `encrypt` and then of `decrypt` with the same key and rounds
gives the text back, for characters below 256, a key of one or more, and two characters or more, or one
with no rounds. Calls are begun on an idle engine (log entry 15). -/
def Obligations.HostDecryptInvertsEncrypt : Prop :=
  ∀ (policy : WideCharPolicy) (s : State) (text key : List Nat) (rounds : Nat),
    s.Inv → s.seq = .idle → (∀ c ∈ text, c < 256) → (∀ c ∈ key, c < 256) →
    (2 ≤ text.length ∨ (text.length = 1 ∧ rounds = 0)) → 1 ≤ key.length →
    text.length ≤ s.cap.nmax → key.length ≤ s.cap.kmax → rounds ≤ 65535 →
    ∃ t u hex, hostEncrypt policy s text key rounds = .ok (t, hex) ∧
      hex.length = 2 * text.length ∧ hostDecrypt t hex key rounds = .ok (u, text)
end

