-- ==== Sys2Proof/Laws/Decode.lean ====
section
/-! SUPPORT. The fields of an assembled command word, and a word from its fields. -/

namespace Sys2Proof

/-- The bits of an assembled word, field by field. -/
theorem CmdWord.getLsbD_mk (op : Byte) (a b : Half) (i : Nat) :
    (CmdWord.mk op a b).getLsbD i =
      if i < 16 then b.getLsbD i else if i < 32 then a.getLsbD (i - 16) else op.getLsbD (i - 32) := by
  simp only [CmdWord.mk, BitVec.getLsbD_append]
  by_cases h : i < 16
  · simp [h]
  · by_cases h' : i < 32
    · simp [h, h', show i - 16 < 16 by omega]
    · simp [h, h', show ¬ i - 16 < 16 by omega, Nat.sub_sub]

@[simp] theorem CmdWord.op_mk (op : Byte) (a b : Half) : CmdWord.op (CmdWord.mk op a b) = op := by
  apply BitVec.eq_of_getLsbD_eq
  intro i hi
  rw [CmdWord.op, BitVec.getLsbD_extractLsb', CmdWord.getLsbD_mk, if_neg (by omega),
    if_neg (by omega), Nat.add_sub_cancel_left]
  simp [hi]

@[simp] theorem CmdWord.a_mk (op : Byte) (a b : Half) : CmdWord.a (CmdWord.mk op a b) = a := by
  apply BitVec.eq_of_getLsbD_eq
  intro i hi
  rw [CmdWord.a, BitVec.getLsbD_extractLsb', CmdWord.getLsbD_mk, if_neg (by omega),
    if_pos (by omega), Nat.add_sub_cancel_left]
  simp [hi]

@[simp] theorem CmdWord.b_mk (op : Byte) (a b : Half) : CmdWord.b (CmdWord.mk op a b) = b := by
  apply BitVec.eq_of_getLsbD_eq
  intro i hi
  rw [CmdWord.b, BitVec.getLsbD_extractLsb', CmdWord.getLsbD_mk, if_pos (by omega), Nat.zero_add]
  simp [hi]

/-- A command word is its three fields (30_encoding.md R60). -/
theorem CmdWord.mk_fields (cw : CmdWord) :
    CmdWord.mk (CmdWord.op cw) (CmdWord.a cw) (CmdWord.b cw) = cw := by
  apply BitVec.eq_of_getLsbD_eq
  intro i hi
  rw [CmdWord.getLsbD_mk, CmdWord.op, CmdWord.a, CmdWord.b, BitVec.getLsbD_extractLsb',
    BitVec.getLsbD_extractLsb', BitVec.getLsbD_extractLsb']
  split
  · simp [*]
  · split
    · simp [show i - 16 < 16 by omega, show 16 + (i - 16) = i by omega]
    · simp [show i - 32 < 8 by omega, show 32 + (i - 32) = i by omega]

/-- Masking works field by field. -/
theorem CmdWord.mk_and (op op' : Byte) (a a' b b' : Half) :
    CmdWord.mk op a b &&& CmdWord.mk op' a' b' = CmdWord.mk (op &&& op') (a &&& a') (b &&& b') := by
  apply BitVec.eq_of_getLsbD_eq
  intro i hi
  simp only [BitVec.getLsbD_and, CmdWord.getLsbD_mk]
  split
  · rfl
  · split <;> rfl

theorem CmdWord.mk_inj {op op' : Byte} {a a' b b' : Half}
    (h : CmdWord.mk op a b = CmdWord.mk op' a' b') : op = op' ∧ a = a' ∧ b = b' :=
  ⟨by simpa using congrArg CmdWord.op h, by simpa using congrArg CmdWord.a h,
    by simpa using congrArg CmdWord.b h⟩

/-- Decoding an assembled word decodes its fields. -/
@[simp] theorem decode_mk (op : Byte) (a b : Half) :
    decode (CmdWord.mk op a b) = decodeFields op a b := by
  simp [decode]

/-- A byte operand leaves the reserved bits of `b` clear and is read back (30_encoding.md R64). -/
theorem byte_field (v : Byte) :
    (0#8 ++ v : Half).extractLsb' 8 8 = 0 ∧ (0#8 ++ v : Half).extractLsb' 0 8 = v := by
  revert v; decide

/-- A MoveCode operand leaves the reserved bits of `b` clear and is read back (30_encoding.md R64). -/
theorem code_field (c : Code) :
    (0#12 ++ c : Half).extractLsb' 4 12 = 0 ∧ (0#12 ++ c : Half).extractLsb' 0 4 = c := by
  revert c; decide

/-- A byte operand is all of `b` when the reserved bits are 0. -/
theorem byte_of_field {b : Half} (h : b.extractLsb' 8 8 = 0) : (0#8 ++ b.extractLsb' 0 8 : Half) = b := by
  rw [show (0#8) = b.extractLsb' 8 8 from h.symm]
  exact BitVec.extractLsb'_append_extractLsb'_eq_extractLsb' (by rfl) |>.trans
    (BitVec.extractLsb'_eq_self)

/-- A MoveCode operand is all of `b` when the reserved bits are 0. -/
theorem code_of_field {b : Half} (h : b.extractLsb' 4 12 = 0) :
    (0#12 ++ b.extractLsb' 0 4 : Half) = b := by
  rw [show (0#12) = b.extractLsb' 4 12 from h.symm]
  exact BitVec.extractLsb'_append_extractLsb'_eq_extractLsb' (by rfl) |>.trans
    (BitVec.extractLsb'_eq_self)

/-! What each operand form accepts (30_encoding.md R64). -/

theorem noOperand_ok {i i' : Instr} {a b : Half} :
    noOperand i a b = .ok i' ↔ a = 0 ∧ b = 0 ∧ i' = i := by
  unfold noOperand
  split
  · next h => exact ⟨fun e => ⟨h.1, h.2, (Except.ok.inj e).symm⟩, fun e => by rw [e.2.2]⟩
  · next h => exact ⟨nofun, fun e => absurd ⟨e.1, e.2.1⟩ h⟩

theorem byteOperand_ok {f : Byte → Instr} {i : Instr} {a b : Half} :
    byteOperand f a b = .ok i ↔ a = 0 ∧ ∃ v : Byte, b = 0#8 ++ v ∧ i = f v := by
  unfold byteOperand
  constructor
  · intro h
    split at h
    · next hr => exact ⟨hr.1, _, (byte_of_field hr.2).symm, (Except.ok.inj h).symm⟩
    · cases h
  · rintro ⟨rfl, v, rfl, rfl⟩
    rw [if_pos ⟨rfl, (byte_field v).1⟩, (byte_field v).2]

theorem firstOperand_ok {f : Half → Instr} {i : Instr} {a b : Half} :
    firstOperand f a b = .ok i ↔ b = 0 ∧ i = f a := by
  unfold firstOperand
  split
  · next h => exact ⟨fun e => ⟨h, (Except.ok.inj e).symm⟩, fun e => by rw [e.2]⟩
  · next h => exact ⟨nofun, fun e => absurd e.1 h⟩

theorem codeOperand_ok {f : Half → Code → Instr} {i : Instr} {a b : Half} :
    codeOperand f a b = .ok i ↔ ∃ c : Code, b = 0#12 ++ c ∧ i = f a c := by
  unfold codeOperand
  constructor
  · intro h
    split at h
    · next hr => exact ⟨_, (code_of_field hr).symm, (Except.ok.inj h).symm⟩
    · cases h
  · rintro ⟨c, rfl, rfl⟩
    rw [if_pos (code_field c).1, (code_field c).2]

theorem bothOperands_ok {f : Half → Half → Instr} {i : Instr} {a b : Half} :
    bothOperands f a b = .ok i ↔ i = f a b := by
  simp [bothOperands, eq_comm]

/-- The 16 MoveCodes name the 16 instructions `mc0` to `mc15`, in order. -/
theorem decodeMoveCode_cases {P : Code → Instr → Prop} (h0 : P 0 .mc0) (h1 : P 1 .mc1)
    (h2 : P 2 .mc2) (h3 : P 3 .mc3) (h4 : P 4 .mc4) (h5 : P 5 .mc5) (h6 : P 6 .mc6)
    (h7 : P 7 .mc7) (h8 : P 8 .mc8) (h9 : P 9 .mc9) (h10 : P 10 .mc10) (h11 : P 11 .mc11)
    (h12 : P 12 .mc12) (h13 : P 13 .mc13) (h14 : P 14 .mc14) (h15 : P 15 .mc15) (c : Code) :
    P c (decodeMoveCode c) := by
  obtain ⟨⟨n, hn⟩⟩ := c
  have : n < 16 := hn
  interval_cases n <;> assumption

end Sys2Proof
end

