-- ==== Sys2Proof/Laws/Encoded.lean ====
section
/-! SUPPORT. The encoding part of a command's rule, once per operand form: it follows from the line of
`decodeFields` for the opcode. -/

namespace Sys2Proof.Machine

/-- What the decoder says of the fields is what `encodedAs` asks. -/
theorem encodedAs_of_fields {op : Byte} {legal : Half → Half → Prop} {i : Half → Half → Instr}
    (hok : ∀ a b, legal a b → decodeFields op a b = .ok (i a b))
    (herr : ∀ a b, ¬ legal a b → decodeFields op a b = .error .reservedBits) :
    encodedAs op legal i := by
  intro a b
  refine ⟨fun h => by rw [decode_mk, hok a b h], fun h s => ?_⟩
  rw [runCommand, decode_mk, herr a b h]
  rfl

theorem encodedPlain_of_fields {op : Byte} {i : Instr}
    (h : ∀ a b, decodeFields op a b = noOperand i a b) : encodedPlain op i :=
  encodedAs_of_fields (fun a b hl => (h a b).trans (if_pos hl)) fun a b hl => (h a b).trans (if_neg hl)

theorem encodedFirst_of_fields {op : Byte} {f : Half → Instr}
    (h : ∀ a b, decodeFields op a b = firstOperand f a b) : encodedFirst op f :=
  encodedAs_of_fields (fun a b hl => (h a b).trans (if_pos hl)) fun a b hl => (h a b).trans (if_neg hl)

theorem encodedBoth_of_fields {op : Byte} {f : Half → Half → Instr}
    (h : ∀ a b, decodeFields op a b = bothOperands f a b) : encodedBoth op f :=
  encodedAs_of_fields (fun a b _ => h a b) fun _ _ hl => absurd trivial hl

/-- A field is below `2 ^ n` iff its bits from `n` on are 0. -/
theorem extractLsb'_high_eq_zero (b : Half) {n : Nat} (hn : n ≤ 16) :
    b.extractLsb' n (16 - n) = 0 ↔ b.toNat < 2 ^ n := by
  rw [← BitVec.toNat_inj, BitVec.extractLsb'_toNat, Nat.shiftRight_eq_div_pow,
    BitVec.ofNat_eq_ofNat, BitVec.toNat_ofNat, Nat.zero_mod]
  have hb : b.toNat / 2 ^ n < 2 ^ (16 - n) := by
    rw [Nat.div_lt_iff_lt_mul (by positivity), ← pow_add]
    simpa [Nat.sub_add_cancel hn] using b.isLt
  rw [Nat.mod_eq_of_lt hb, Nat.div_eq_zero_iff]
  simp

theorem extractLsb'_low_eq_ofNat (b : Half) (n : Nat) :
    b.extractLsb' 0 n = BitVec.ofNat n b.toNat := by
  apply BitVec.eq_of_toNat_eq
  simp [BitVec.extractLsb'_toNat]

theorem encodedByte_of_fields {op : Byte} {f : Byte → Instr}
    (h : ∀ a b, decodeFields op a b = byteOperand f a b) : encodedByte op f := by
  have hb (b : Half) : b.extractLsb' 8 8 = 0 ↔ b.toNat < 256 :=
    extractLsb'_high_eq_zero b (n := 8) (by omega)
  refine encodedAs_of_fields (fun a b hl => ?_) fun a b hl => ?_
  · rw [h, byteOperand, if_pos ⟨hl.1, (hb b).2 hl.2⟩, extractLsb'_low_eq_ofNat]
  · rw [h, byteOperand, if_neg fun hc => hl ⟨hc.1, (hb b).1 hc.2⟩]

theorem encodedCode_of_fields {op : Byte} {f : Half → Code → Instr}
    (h : ∀ a b, decodeFields op a b = codeOperand f a b) : encodedCode op f := by
  have hb (b : Half) : b.extractLsb' 4 12 = 0 ↔ b.toNat < 16 :=
    extractLsb'_high_eq_zero b (n := 4) (by omega)
  refine encodedAs_of_fields (fun a b hl => ?_) fun a b hl => ?_
  · rw [h, codeOperand, if_pos ((hb b).2 hl), extractLsb'_low_eq_ofNat]
  · rw [h, codeOperand, if_neg fun hc => hl ((hb b).1 hc)]

end Sys2Proof.Machine
end

