-- ==== Sys2Proof/Laws/Functions.lean ====
section
/-! SUPPORT. The functions of the units: lengths, guards and elements. -/

namespace Sys2Proof.Machine

/-! ### Rotations of a range -/

theorem badRange_iff (s : List Byte) (a b : Int) :
    badRange s a b = true ↔ a < 0 ∨ (s.length : Int) < b ∨ b ≤ a := by
  simp [badRange, or_assoc]

theorem badRange_natCast (s : List Byte) (a b : Nat) :
    badRange s (a : Int) (b : Int) = true ↔ s.length < b ∨ b ≤ a := by
  rw [badRange_iff]; omega

@[simp] theorem lastToFront_length (m : List Byte) : (lastToFront m).length = m.length := by
  unfold lastToFront
  split
  · next t h =>
    have : m ≠ [] := by rintro rfl; simp at h
    have := List.length_pos_iff.mpr this
    simp; omega
  · next h => simp [List.getLast?_eq_none_iff.mp h]

@[simp] theorem firstToBack_length (m : List Byte) : (firstToBack m).length = m.length := by
  cases m <;> simp [firstToBack]

theorem firstToBack_lastToFront (m : List Byte) : firstToBack (lastToFront m) = m := by
  unfold lastToFront
  split
  · next t h => exact List.dropLast_append_getLast? t h
  · next h => simp [firstToBack, List.getLast?_eq_none_iff.mp h]

theorem lastToFront_firstToBack (m : List Byte) : lastToFront (firstToBack m) = m := by
  cases m <;> simp [firstToBack, lastToFront]

theorem onRange_length {f : List Byte → List Byte} (hf : ∀ m, (f m).length = m.length)
    {s : List Byte} {lo hi : Nat} (h : lo ≤ hi) (hs : hi ≤ s.length) :
    (onRange f s lo hi).length = s.length := by
  simp [onRange, hf]; omega

@[simp] theorem rotateRight_length (s : List Byte) (a b : Int) :
    (rotateRight s a b).length = s.length := by
  unfold rotateRight
  split
  · rfl
  · next h =>
    rw [badRange_iff] at h
    exact onRange_length lastToFront_length (by omega) (by omega)

@[simp] theorem rotateLeft_length (s : List Byte) (a b : Int) :
    (rotateLeft s a b).length = s.length := by
  unfold rotateLeft
  split
  · rfl
  · next h =>
    rw [badRange_iff] at h
    exact onRange_length firstToBack_length (by omega) (by omega)

/-! ### Swap and the whole-State rotations -/

@[simp] theorem swap_length (s : List Byte) (i j : Nat) : (swap s i j).length = s.length := by
  unfold swap
  dsimp only
  split <;> simp

/-- `swap` on a nonempty State, with the bytes it exchanges named. -/
theorem swap_eq {s : List Byte} (h : 0 < s.length) (i j : Nat) :
    swap s i j = (s.set (i % s.length) (s[j % s.length]'(Nat.mod_lt _ h))).set (j % s.length)
      (s[i % s.length]'(Nat.mod_lt _ h)) := by
  unfold swap
  simp only [List.getElem?_eq_getElem (Nat.mod_lt i h), List.getElem?_eq_getElem (Nat.mod_lt j h)]

@[simp] theorem rotateState_length (s : List Byte) (k : Nat) :
    (rotateState s k).length = s.length := by
  simp [rotateState]

@[simp] theorem unrotateState_length (s : List Byte) (k : Nat) :
    (unrotateState s k).length = s.length := by
  simp [unrotateState]; omega

/-! ### Moves -/

@[simp] theorem rotateSelected_length (c : Code) (d : Bool) (s : List Byte) :
    (rotateSelected c d s).length = s.length := by
  unfold rotateSelected; split <;> simp

@[simp] theorem swapSelected_length (c : Code) (r : Nat) (s : List Byte) :
    (swapSelected c r s).length = s.length := by
  unfold swapSelected; split <;> simp

@[simp] theorem applyMove_length (s : List Byte) (c : Code) (r : Nat) :
    (applyMove s c r).length = s.length := by simp [applyMove]

@[simp] theorem reverseMove_length (s : List Byte) (c : Code) (r : Nat) :
    (reverseMove s c r).length = s.length := by simp [reverseMove]

/-! ### Key schedule -/

@[simp] theorem moveCodes_nil : moveCodes [] = [] := rfl

@[simp] theorem moveCodes_cons (v : Byte) (K : List Byte) :
    moveCodes (v :: K) = highNibble v :: lowNibble v :: moveCodes K := rfl

@[simp] theorem moveCodes_length (K : List Byte) : (moveCodes K).length = nmc K := by
  induction K with
  | nil => rfl
  | cons v K ih => simp [ih, nmc]; omega

@[simp] theorem roundKey_length (K : List Byte) (r n : Nat) : (roundKey K r n).length = n := by
  simp [roundKey]

theorem roundKey_getElem? (K : List Byte) (r : Nat) {n i : Nat} (h : i < n) :
    (roundKey K r n)[i]? = some (roundKeyByte K r i) := by
  simp [roundKey, h]

/-! ### Diffusion and mixing -/

@[simp] theorem diffuse_length (s k : List Byte) :
    (diffuse s k).length = min s.length k.length := by simp [diffuse]

@[simp] theorem mixFrom_length (p : Byte) (s : List Byte) : (mixFrom p s).length = s.length := by
  induction s generalizing p with
  | nil => rfl
  | cons x s ih => simp [mixFrom, ih]

@[simp] theorem unmixFrom_length (p : Byte) (s : List Byte) :
    (unmixFrom p s).length = s.length := by
  induction s generalizing p with
  | nil => rfl
  | cons x s ih => simp [unmixFrom, ih]

@[simp] theorem mix_length (s : List Byte) : (mix s).length = s.length := by
  unfold mix
  split
  · simp
  · next h => simp [List.getLast?_eq_none_iff.mp h]

@[simp] theorem reverseMix_length (s : List Byte) : (reverseMix s).length = s.length := by
  cases s <;> simp [reverseMix]

/-! ### Orchestrator -/

/-- A fold of length-preserving passes keeps the length. -/
theorem foldl_length {α : Type} {f : List Byte → α → List Byte}
    (hf : ∀ s a, (f s a).length = s.length) (l : List α) (s : List Byte) :
    (l.foldl f s).length = s.length := by
  induction l generalizing s with
  | nil => rfl
  | cons a l ih => rw [List.foldl_cons, ih, hf]

@[simp] theorem roundF_length (K s : List Byte) (r : Nat) : (roundF K s r).length = s.length := by
  simp [roundF, foldl_length]

@[simp] theorem roundR_length (K s : List Byte) (r : Nat) : (roundR K s r).length = s.length := by
  simp only [roundR, foldl_length fun s c => reverseMove_length s c r]
  simp

@[simp] theorem encryptCore_length (K s : List Byte) (n : Nat) :
    (encryptCore K s n).length = s.length := by
  simp [encryptCore, foldl_length fun s r => roundF_length K s r]

@[simp] theorem decryptCore_length (K s : List Byte) (n : Nat) :
    (decryptCore K s n).length = s.length := by
  simp only [decryptCore, unrotateState_length, foldl_length fun s r => roundR_length K s r]

end Sys2Proof.Machine
end

