-- ==== Sys2Proof/Laws/State.lean ====
section
/-! SUPPORT. What each update of the state does to each field, and to the length registers. -/

namespace Sys2Proof.Machine

@[simp] theorem State.withS_cap (s : State) (S : List Byte) : (s.withS S).cap = s.cap := rfl
@[simp] theorem State.withS_S (s : State) (S : List Byte) : (s.withS S).S = S := rfl
@[simp] theorem State.withS_K (s : State) (S : List Byte) : (s.withS S).K = s.K := rfl
@[simp] theorem State.withS_err (s : State) (S : List Byte) : (s.withS S).err = s.err := rfl
@[simp] theorem State.withS_seq (s : State) (S : List Byte) : (s.withS S).seq = s.seq := rfl
@[simp] theorem State.withS_port (s : State) (S : List Byte) : (s.withS S).port = s.port := rfl
@[simp] theorem State.withS_out (s : State) (S : List Byte) : (s.withS S).out = s.out := rfl

@[simp] theorem State.withK_cap (s : State) (K : List Byte) : (s.withK K).cap = s.cap := rfl
@[simp] theorem State.withK_S (s : State) (K : List Byte) : (s.withK K).S = s.S := rfl
@[simp] theorem State.withK_K (s : State) (K : List Byte) : (s.withK K).K = K := rfl
@[simp] theorem State.withK_err (s : State) (K : List Byte) : (s.withK K).err = s.err := rfl
@[simp] theorem State.withK_seq (s : State) (K : List Byte) : (s.withK K).seq = s.seq := rfl
@[simp] theorem State.withK_port (s : State) (K : List Byte) : (s.withK K).port = s.port := rfl
@[simp] theorem State.withK_out (s : State) (K : List Byte) : (s.withK K).out = s.out := rfl

@[simp] theorem State.withErr_cap (s : State) (e : ErrCode) : (s.withErr e).cap = s.cap := rfl
@[simp] theorem State.withErr_S (s : State) (e : ErrCode) : (s.withErr e).S = s.S := rfl
@[simp] theorem State.withErr_K (s : State) (e : ErrCode) : (s.withErr e).K = s.K := rfl
@[simp] theorem State.withErr_err (s : State) (e : ErrCode) : (s.withErr e).err = e := rfl
@[simp] theorem State.withErr_seq (s : State) (e : ErrCode) : (s.withErr e).seq = s.seq := rfl
@[simp] theorem State.withErr_port (s : State) (e : ErrCode) : (s.withErr e).port = s.port := rfl
@[simp] theorem State.withErr_out (s : State) (e : ErrCode) : (s.withErr e).out = s.out := rfl

@[simp] theorem State.withSeq_cap (s : State) (q : Sequencer) : (s.withSeq q).cap = s.cap := rfl
@[simp] theorem State.withSeq_S (s : State) (q : Sequencer) : (s.withSeq q).S = s.S := rfl
@[simp] theorem State.withSeq_K (s : State) (q : Sequencer) : (s.withSeq q).K = s.K := rfl
@[simp] theorem State.withSeq_err (s : State) (q : Sequencer) : (s.withSeq q).err = s.err := rfl
@[simp] theorem State.withSeq_seq (s : State) (q : Sequencer) : (s.withSeq q).seq = q := rfl
@[simp] theorem State.withSeq_port (s : State) (q : Sequencer) : (s.withSeq q).port = s.port := rfl
@[simp] theorem State.withSeq_out (s : State) (q : Sequencer) : (s.withSeq q).out = s.out := rfl

@[simp] theorem State.withPort_cap (s : State) (p : List PortEvent) : (s.withPort p).cap = s.cap := rfl
@[simp] theorem State.withPort_S (s : State) (p : List PortEvent) : (s.withPort p).S = s.S := rfl
@[simp] theorem State.withPort_K (s : State) (p : List PortEvent) : (s.withPort p).K = s.K := rfl
@[simp] theorem State.withPort_err (s : State) (p : List PortEvent) : (s.withPort p).err = s.err := rfl
@[simp] theorem State.withPort_seq (s : State) (p : List PortEvent) : (s.withPort p).seq = s.seq := rfl
@[simp] theorem State.withPort_port (s : State) (p : List PortEvent) : (s.withPort p).port = p := rfl
@[simp] theorem State.withPort_out (s : State) (p : List PortEvent) : (s.withPort p).out = s.out := rfl

@[simp] theorem State.emit_cap (s : State) (r : Response) : (s.emit r).cap = s.cap := rfl
@[simp] theorem State.emit_S (s : State) (r : Response) : (s.emit r).S = s.S := rfl
@[simp] theorem State.emit_K (s : State) (r : Response) : (s.emit r).K = s.K := rfl
@[simp] theorem State.emit_err (s : State) (r : Response) : (s.emit r).err = s.err := rfl
@[simp] theorem State.emit_seq (s : State) (r : Response) : (s.emit r).seq = s.seq := rfl
@[simp] theorem State.emit_port (s : State) (r : Response) : (s.emit r).port = s.port := rfl
@[simp] theorem State.emit_out (s : State) (r : Response) : (s.emit r).out = s.out ++ [r] := rfl

@[simp] theorem State.appendS_S (s : State) (v : Byte) : (s.appendS v).S = s.S ++ [v] := rfl
@[simp] theorem State.appendK_K (s : State) (v : Byte) : (s.appendK v).K = s.K ++ [v] := rfl

/-- The length registers are the lengths of the buffers. -/
theorem State.LEN_eq (s : State) : s.LEN = s.S.length := rfl
theorem State.KLEN_eq (s : State) : s.KLEN = s.K.length := rfl

theorem State.LEN_eq_zero (s : State) : s.LEN = 0 ↔ s.S = [] := List.length_eq_zero_iff
theorem State.KLEN_eq_zero (s : State) : s.KLEN = 0 ↔ s.K = [] := List.length_eq_zero_iff

end Sys2Proof.Machine
end

