-- ==== Sys2Proof/Laws/Ops.lean ====
section
/-! SUPPORT. One lemma per shared operation: how a command ends, and when its checks pass. -/

namespace Sys2Proof.Machine

theorem ErrCode.latch_eq (old e : ErrCode) : old.latch e = if old = .ok then e else old := rfl

/-- `respond` in full: a command that ends without a fault changes nothing by ending. -/
theorem respond_eq (s : State) (d : Half) :
    s.respond d = s.endsWith s.S s.K s.err { err := .ok, data := d } := rfl

/-- `raise` in full (60_exceptions.md R184). -/
theorem raise_eq (s : State) (e : ErrCode) : s.raise e = s.faultsWith e := rfl

theorem complete_eq (s : State) (d : Half) :
    complete s d = .next (s.endsWith s.S s.K s.err { err := .ok, data := d }) := rfl

theorem trap_eq (s : State) (e : ErrCode) : trap s e = .next (s.faultsWith e) := rfl

/-- A transform command in full: the new content of S, and nothing else but the response. -/
theorem transform_eq (s : State) (f : List Byte → List Byte) :
    transform s f = .next (s.endsWith (f s.S) s.K s.err { err := .ok, data := 0 }) := rfl

theorem needState_pos {s : State} (h : 0 < s.LEN) (o : Result) : needState s o = o :=
  if_neg (by omega)

theorem needState_zero {s : State} (h : s.LEN = 0) (o : Result) :
    needState s o = .next (s.faultsWith .emptyState) := if_pos h

theorem needKey_pos {s : State} (h : 0 < s.KLEN) (o : Result) : needKey s o = o :=
  if_neg (by omega)

theorem needKey_zero {s : State} (h : s.KLEN = 0) (o : Result) :
    needKey s o = .next (s.faultsWith .emptyKey) := if_pos h

theorem needBoth_pos {s : State} (h : 0 < s.LEN) (hk : 0 < s.KLEN) (o : Result) :
    needBoth s o = o := by
  rw [needBoth, needState_pos h, needKey_pos hk]

/-- What `needState` can answer. -/
theorem needState_cases {s t : State} {o : Result} (h : needState s o = .next t) :
    (s.LEN = 0 ∧ t = s.faultsWith .emptyState) ∨ (0 < s.LEN ∧ o = .next t) := by
  rcases Nat.eq_zero_or_pos s.LEN with h0 | h0
  · rw [needState_zero h0] at h
    exact .inl ⟨h0, (Host.Outcome.next.inj h).symm⟩
  · rw [needState_pos h0] at h
    exact .inr ⟨h0, h⟩

/-- What `needKey` can answer. -/
theorem needKey_cases {s t : State} {o : Result} (h : needKey s o = .next t) :
    (s.KLEN = 0 ∧ t = s.faultsWith .emptyKey) ∨ (0 < s.KLEN ∧ o = .next t) := by
  rcases Nat.eq_zero_or_pos s.KLEN with h0 | h0
  · rw [needKey_zero h0] at h
    exact .inl ⟨h0, (Host.Outcome.next.inj h).symm⟩
  · rw [needKey_pos h0] at h
    exact .inr ⟨h0, h⟩

section EndsWith

variable (s : State) (S K : List Byte) (e : ErrCode) (r : Response)

@[simp] theorem State.endsWith_cap : (s.endsWith S K e r).cap = s.cap := rfl
@[simp] theorem State.endsWith_S : (s.endsWith S K e r).S = S := rfl
@[simp] theorem State.endsWith_K : (s.endsWith S K e r).K = K := rfl
@[simp] theorem State.endsWith_err : (s.endsWith S K e r).err = e := rfl
@[simp] theorem State.endsWith_seq : (s.endsWith S K e r).seq = .idle := rfl
@[simp] theorem State.endsWith_port : (s.endsWith S K e r).port = s.port := rfl
@[simp] theorem State.endsWith_out : (s.endsWith S K e r).out = s.out ++ [r] := rfl
@[simp] theorem State.endsWith_LEN : (s.endsWith S K e r).LEN = S.length := rfl
@[simp] theorem State.endsWith_KLEN : (s.endsWith S K e r).KLEN = K.length := rfl

end EndsWith

end Sys2Proof.Machine
end

