-- ==== Sys2Proof/Laws/Memory.lean ====
section
/-! SUPPORT. The canonical form of the two buffers (`Memory.wf`): the machine after reset has it, and
every operation that writes a buffer keeps it. -/

namespace Sys2Proof.Machine

theorem Memory.wf_resetWith (cap : Capacity) : Memory.wf (State.resetWith cap) :=
  ⟨Nat.zero_le _, Nat.zero_le _⟩

theorem Memory.wf_reset : Memory.wf State.reset := Memory.wf_resetWith _

variable {s : State}

/-- A State buffer of the same length or shorter fits. -/
theorem Memory.wf_withS (h : Memory.wf s) {S : List Byte} (hS : S.length ≤ s.cap.nmax) :
    Memory.wf (s.withS S) := ⟨hS, h.2⟩

/-- A Key buffer of the same length or shorter fits. -/
theorem Memory.wf_withK (h : Memory.wf s) {K : List Byte} (hK : K.length ≤ s.cap.kmax) :
    Memory.wf (s.withK K) := ⟨h.1, hK⟩

/-- CLRS. -/
theorem Memory.wf_clearS (h : Memory.wf s) : Memory.wf (s.withS []) :=
  Memory.wf_withS h (Nat.zero_le _)

/-- CLRK. -/
theorem Memory.wf_clearK (h : Memory.wf s) : Memory.wf (s.withK []) :=
  Memory.wf_withK h (Nat.zero_le _)

/-- PUSHS, after its check. -/
theorem Memory.wf_appendS (h : Memory.wf s) (hn : s.LEN ≠ s.cap.nmax) (v : Byte) :
    Memory.wf (s.appendS v) := by
  refine Memory.wf_withS h ?_
  have := h.1
  simp only [State.LEN_eq] at hn
  simp only [List.length_append, List.length_singleton]
  omega

/-- PUSHK, after its check. -/
theorem Memory.wf_appendK (h : Memory.wf s) (hn : s.KLEN ≠ s.cap.kmax) (v : Byte) :
    Memory.wf (s.appendK v) := by
  refine Memory.wf_withK h ?_
  have := h.2
  simp only [State.KLEN_eq] at hn
  simp only [List.length_append, List.length_singleton]
  omega

/-- Every transform of the State keeps its length, so its result fits. -/
theorem Memory.wf_transform (h : Memory.wf s) {f : List Byte → List Byte}
    (hf : (f s.S).length = s.S.length) : Memory.wf (s.withS (f s.S)) :=
  Memory.wf_withS h (hf ▸ h.1)

/-- XOR with a round key of the State's length. -/
theorem Memory.wf_diffuse (h : Memory.wf s) (r : Nat) :
    Memory.wf (s.withS (diffuse s.S (roundKey s.K r s.S.length))) :=
  Memory.wf_withS h (by simpa using h.1)

/-- The end of a command, with or without a fault. -/
theorem Memory.wf_respond (h : Memory.wf s) (d : Half) : Memory.wf (s.respond d) := h

theorem Memory.wf_raise (h : Memory.wf s) (e : ErrCode) : Memory.wf (s.raise e) := h

/-- The Reset event. -/
theorem Memory.wf_resetEvent (s : State) : Memory.wf s.resetEvent :=
  ⟨Nat.zero_le _, Nat.zero_le _⟩

end Sys2Proof.Machine
end

