-- ==== Sys2Proof/Laws/PerInstr.lean ====
section
/-! SUPPORT. Per instruction: the encoder writes a word that fits a row of the opcode table, or the
instruction's own MoveCode. -/

namespace Sys2Proof.Laws.EncodingRow

/-- The encoding of `i` is a legal command word of the opcode table, or the MoveCode of `i`. -/
def Statement (i : Instr) : Prop :=
  match encode i with
  | .command cw => CmdWord.wellFormed cw = true
  | .moveCode c => decodeMoveCode c = i

/-- A word whose fields agree with a row, and whose reserved bits are 0, is well formed. -/
theorem wellFormed_mk {mnemonic : String} {op : Byte} {a b ra rb : Half}
    (row : Row.mk mnemonic (CmdWord.mk op 0 0) (CmdWord.mk 0xFF ra rb) ∈ Row.commands)
    (ha : a &&& ra = 0) (hb : b &&& rb = 0) : CmdWord.wellFormed (CmdWord.mk op a b) = true := by
  refine List.any_eq_true.mpr ⟨_, row, ?_⟩
  have hop : op &&& 0xFF = op := BitVec.and_allOnes (x := op)
  rw [Row.fits, CmdWord.mk_and, ha, hb, hop]
  exact beq_self_eq_true _

theorem byte_reserved (v : Byte) : (0#8 ++ v : Half) &&& 0xFF00 = 0 := by revert v; decide

theorem code_reserved (c : Code) : (0#12 ++ c : Half) &&& 0xFFF0 = 0 := by revert c; decide

theorem nop : Statement .nop :=
  wellFormed_mk (mnemonic := "NOP") (ra := 0xFFFF) (rb := 0xFFFF) (by decide)
    BitVec.zero_and BitVec.zero_and

theorem clrs : Statement .clrs :=
  wellFormed_mk (mnemonic := "CLRS") (ra := 0xFFFF) (rb := 0xFFFF) (by decide)
    BitVec.zero_and BitVec.zero_and

theorem pushs (v : Byte) : Statement (.pushs v) :=
  wellFormed_mk (mnemonic := "PUSHS") (ra := 0xFFFF) (rb := 0xFF00) (by decide)
    BitVec.zero_and (byte_reserved v)

theorem rds (index : Half) : Statement (.rds index) :=
  wellFormed_mk (mnemonic := "RDS") (ra := 0x0000) (rb := 0xFFFF) (by decide)
    BitVec.and_zero BitVec.zero_and

theorem clrk : Statement .clrk :=
  wellFormed_mk (mnemonic := "CLRK") (ra := 0xFFFF) (rb := 0xFFFF) (by decide)
    BitVec.zero_and BitVec.zero_and

theorem pushk (v : Byte) : Statement (.pushk v) :=
  wellFormed_mk (mnemonic := "PUSHK") (ra := 0xFFFF) (rb := 0xFF00) (by decide)
    BitVec.zero_and (byte_reserved v)

theorem getlen : Statement .getlen :=
  wellFormed_mk (mnemonic := "GETLEN") (ra := 0xFFFF) (rb := 0xFFFF) (by decide)
    BitVec.zero_and BitVec.zero_and

theorem getklen : Statement .getklen :=
  wellFormed_mk (mnemonic := "GETKLEN") (ra := 0xFFFF) (rb := 0xFFFF) (by decide)
    BitVec.zero_and BitVec.zero_and

theorem geterr : Statement .geterr :=
  wellFormed_mk (mnemonic := "GETERR") (ra := 0xFFFF) (rb := 0xFFFF) (by decide)
    BitVec.zero_and BitVec.zero_and

theorem clrerr : Statement .clrerr :=
  wellFormed_mk (mnemonic := "CLRERR") (ra := 0xFFFF) (rb := 0xFFFF) (by decide)
    BitVec.zero_and BitVec.zero_and

theorem rotr (start stop : Half) : Statement (.rotr start stop) :=
  wellFormed_mk (mnemonic := "ROTR") (ra := 0x0000) (rb := 0x0000) (by decide)
    BitVec.and_zero BitVec.and_zero

theorem rotl (start stop : Half) : Statement (.rotl start stop) :=
  wellFormed_mk (mnemonic := "ROTL") (ra := 0x0000) (rb := 0x0000) (by decide)
    BitVec.and_zero BitVec.and_zero

theorem swap (pos1 pos2 : Half) : Statement (.swap pos1 pos2) :=
  wellFormed_mk (mnemonic := "SWAP") (ra := 0x0000) (rb := 0x0000) (by decide)
    BitVec.and_zero BitVec.and_zero

theorem rots : Statement .rots :=
  wellFormed_mk (mnemonic := "ROTS") (ra := 0xFFFF) (rb := 0xFFFF) (by decide)
    BitVec.zero_and BitVec.zero_and

theorem urots : Statement .urots :=
  wellFormed_mk (mnemonic := "UROTS") (ra := 0xFFFF) (rb := 0xFFFF) (by decide)
    BitVec.zero_and BitVec.zero_and

theorem move (round : Half) (code : Code) : Statement (.move round code) :=
  wellFormed_mk (mnemonic := "MOVE") (ra := 0x0000) (rb := 0xFFF0) (by decide)
    BitVec.and_zero (code_reserved code)

theorem rmove (round : Half) (code : Code) : Statement (.rmove round code) :=
  wellFormed_mk (mnemonic := "RMOVE") (ra := 0x0000) (rb := 0xFFF0) (by decide)
    BitVec.and_zero (code_reserved code)

theorem getmc (j : Half) : Statement (.getmc j) :=
  wellFormed_mk (mnemonic := "GETMC") (ra := 0x0000) (rb := 0xFFFF) (by decide)
    BitVec.and_zero BitVec.zero_and

theorem getrk (r i : Half) : Statement (.getrk r i) :=
  wellFormed_mk (mnemonic := "GETRK") (ra := 0x0000) (rb := 0x0000) (by decide)
    BitVec.and_zero BitVec.and_zero

theorem getshift : Statement .getshift :=
  wellFormed_mk (mnemonic := "GETSHIFT") (ra := 0xFFFF) (rb := 0xFFFF) (by decide)
    BitVec.zero_and BitVec.zero_and

theorem diff (round : Half) : Statement (.diff round) :=
  wellFormed_mk (mnemonic := "DIFF") (ra := 0x0000) (rb := 0xFFFF) (by decide)
    BitVec.and_zero BitVec.zero_and

theorem mix : Statement .mix :=
  wellFormed_mk (mnemonic := "MIX") (ra := 0xFFFF) (rb := 0xFFFF) (by decide)
    BitVec.zero_and BitVec.zero_and

theorem rmix : Statement .rmix :=
  wellFormed_mk (mnemonic := "RMIX") (ra := 0xFFFF) (rb := 0xFFFF) (by decide)
    BitVec.zero_and BitVec.zero_and

theorem rndf (round : Half) : Statement (.rndf round) :=
  wellFormed_mk (mnemonic := "RNDF") (ra := 0x0000) (rb := 0xFFFF) (by decide)
    BitVec.and_zero BitVec.zero_and

theorem rndr (round : Half) : Statement (.rndr round) :=
  wellFormed_mk (mnemonic := "RNDR") (ra := 0x0000) (rb := 0xFFFF) (by decide)
    BitVec.and_zero BitVec.zero_and

theorem enc (rounds : Half) : Statement (.enc rounds) :=
  wellFormed_mk (mnemonic := "ENC") (ra := 0x0000) (rb := 0xFFFF) (by decide)
    BitVec.and_zero BitVec.zero_and

theorem dec (rounds : Half) : Statement (.dec rounds) :=
  wellFormed_mk (mnemonic := "DEC") (ra := 0x0000) (rb := 0xFFFF) (by decide)
    BitVec.and_zero BitVec.zero_and

theorem mc0 : Statement .mc0 := rfl
theorem mc1 : Statement .mc1 := rfl
theorem mc2 : Statement .mc2 := rfl
theorem mc3 : Statement .mc3 := rfl
theorem mc4 : Statement .mc4 := rfl
theorem mc5 : Statement .mc5 := rfl
theorem mc6 : Statement .mc6 := rfl
theorem mc7 : Statement .mc7 := rfl
theorem mc8 : Statement .mc8 := rfl
theorem mc9 : Statement .mc9 := rfl
theorem mc10 : Statement .mc10 := rfl
theorem mc11 : Statement .mc11 := rfl
theorem mc12 : Statement .mc12 := rfl
theorem mc13 : Statement .mc13 := rfl
theorem mc14 : Statement .mc14 := rfl
theorem mc15 : Statement .mc15 := rfl

end Sys2Proof.Laws.EncodingRow
end

