-- ==== Sys2Proof/Laws/Sequencing.lean ====
section
/-! SUPPORT. What a MoveCode, a micro-operation and a step can do, said once. -/

namespace Sys2Proof.Machine

/-- Each of the 16 MoveCode instructions is the shared move of its code. -/
theorem exec_decodeMoveCode (c : Code) (s : State) :
    exec (decodeMoveCode c) s = execMoveCode c s := by
  obtain ⟨⟨n, hn⟩⟩ := c
  have : n < 16 := hn
  interval_cases n <;> rfl

/-- Everything a MoveCode can do: a move of a running round, or `ERR_EMPTY_STATE`. -/
theorem execMoveCode_cases {c : Code} {s t : State} (h : execMoveCode c s = .next t) :
    (s.LEN = 0 ∧ t = s.faultsWith .emptyState) ∨
    (0 < s.LEN ∧ ∃ m r j, s.seq = .running m .move r j ∧
      t = afterMove (s.withS (applyMove s.S c r)) m r j) ∨
    (0 < s.LEN ∧ ∃ m r j, s.seq = .running m .rmove r j ∧
      t = afterRmove (s.withS (reverseMove s.S c r)) m r j) := by
  unfold execMoveCode at h
  split at h
  · next m r j hs =>
    rcases needState_cases h with ⟨h0, ht⟩ | ⟨h0, ht⟩
    · exact .inl ⟨h0, ht⟩
    · exact .inr (.inl ⟨h0, m, r, j, hs, (Host.Outcome.next.inj ht).symm⟩)
  · next m r j hs =>
    rcases needState_cases h with ⟨h0, ht⟩ | ⟨h0, ht⟩
    · exact .inl ⟨h0, ht⟩
    · exact .inr (.inr ⟨h0, m, r, j, hs, (Host.Outcome.next.inj ht).symm⟩)
  · cases h

/-- Everything one step at the port can be. -/
theorem step_cases (s : State) :
    (s.port = [] ∧ step s = microStep s) ∨
    (∃ rest, s.port = .reset :: rest ∧ step s = .next (s.withPort rest).resetEvent) ∨
    (∃ rest, s.port = .quiet :: rest ∧ step s = microStep (s.withPort rest)) ∨
    (∃ cw rest, s.port = .command cw :: rest ∧ s.seq = .idle ∧
      step s = runCommand cw (s.withPort rest)) ∨
    (∃ cw rest, s.port = .sequenced cw :: rest ∧ s.seq = .idle ∧
      step s = startCommand cw (s.withPort rest)) ∨
    (∃ cw rest, (s.port = .command cw :: rest ∨ s.port = .sequenced cw :: rest) ∧
      s.seq ≠ .idle ∧ step s = microStep s) := by
  unfold step portStep
  split
  · next h => exact .inl ⟨h, rfl⟩
  · next rest h => exact .inr (.inl ⟨rest, h, rfl⟩)
  · next rest h => exact .inr (.inr (.inl ⟨rest, h, rfl⟩))
  · next cw rest h =>
    split
    · next hs => exact .inr (.inr (.inr (.inl ⟨cw, rest, h, hs, rfl⟩)))
    · next hs => exact .inr (.inr (.inr (.inr (.inr ⟨cw, rest, .inl h, hs, rfl⟩))))
  · next cw rest h =>
    split
    · next hs => exact .inr (.inr (.inr (.inr (.inl ⟨cw, rest, h, hs, rfl⟩))))
    · next hs => exact .inr (.inr (.inr (.inr (.inr ⟨cw, rest, .inr h, hs, rfl⟩))))

/-- What a command word presented for the sequenced view does: an illegal word raises `ERR_ILLEGAL`, a
macro command starts the sequencer after its checks, any other command runs. -/
theorem startCommand_eq (cw : CmdWord) (s : State) :
    (∃ e, decode cw = .error e ∧ startCommand cw s = trap s .illegal) ∨
    (∃ i q, decode cw = .ok i ∧ firstMicroOp i = some q ∧
      startCommand cw s = needBoth s (.next (s.withSeq q))) ∨
    (∃ i, decode cw = .ok i ∧ firstMicroOp i = none ∧ startCommand cw s = exec i s) := by
  unfold startCommand
  split
  · next i h =>
    split
    · next q hq => exact .inr (.inl ⟨i, q, h, hq, rfl⟩)
    · next hq => exact .inr (.inr ⟨i, h, hq, rfl⟩)
  · next e h => exact .inl ⟨e, h, rfl⟩

end Sys2Proof.Machine
end

