-- ==== Sys2Proof/Tests/Slice0.lean ====
section
/-! SUPPORT. Small tests. Expected words and values come from the encoding rules and tables of
30_encoding.md and from the vectors of 95_test_vectors.md (named V<n>, or P<n> for its programs). -/

namespace Sys2Proof.Tests

open Sys2Proof.Machine

/-! ### Helpers -/

/-- The reset state with loaded buffers. -/
def loaded (S K : List Byte) : State := { State.reset with S := S, K := K }

/-- The engine of P5, `NMAX = 4` and `KMAX = 2`, with loaded buffers. -/
def small (S K : List Byte) : State := { State.resetWith { nmax := 4, kmax := 2 } with S := S, K := K }

/-- A state whose sequencer is at a micro-operation. -/
def running (S K : List Byte) (m : Macro) (phase : Phase) (r j : Nat) : State :=
  { loaded S K with seq := .running m phase r j }

/-- The next state, if there is one. -/
def nextState (o : Result) : Option State :=
  match o with
  | .next t => some t
  | .fault _ => none
  | .refused _ => none

/-- S after an outcome. -/
def stateAfter (o : Result) : Option (List Byte) := (nextState o).map fun t => t.S

/-- K after an outcome. -/
def keyAfter (o : Result) : Option (List Byte) := (nextState o).map fun t => t.K

/-- `ERR` after an outcome. -/
def errAfter (o : Result) : Option Byte := (nextState o).map fun t => t.err.code

/-- The response words given. -/
def answers (o : Result) : Option (List RespWord) := (nextState o).map fun t => t.out.map Response.word

/-- The sequencer after an outcome. -/
def seqAfter (o : Result) : Option Sequencer := (nextState o).map fun t => t.seq

/-- "Python", V29. -/
def python : List Byte := [0x50, 0x79, 0x74, 0x68, 0x6F, 0x6E]

/-- The State of V13 to V22. -/
def tens : List Byte := [10, 20, 30, 40, 50, 60, 70, 80]

/-- The State of V23. -/
def seven : List Byte := [1, 2, 3, 4, 5, 6, 7]

/-! ### What is ill-formed is refused -/

theorem test_wf_unknown_opcode : CmdWord.wellFormed 0x0A00000000 = false := by decide
theorem test_wf_reserved_a : CmdWord.wellFormed 0x0200010000 = false := by decide
theorem test_wf_reserved_b : CmdWord.wellFormed 0x5200010001 = false := by decide
theorem test_wf_reserved_code_bits : CmdWord.wellFormed 0x2000000010 = false := by decide
theorem test_wf_accepts : CmdWord.wellFormed 0x52000A0000 = true := by decide
theorem test_wf_nmax_zero : ¬ Capacity.wf { nmax := 0, kmax := 1 } := by decide
theorem test_wf_nmax_above : ¬ Capacity.wf { nmax := 65536, kmax := 1 } := by decide
theorem test_wf_kmax_zero : ¬ Capacity.wf { nmax := 1, kmax := 0 } := by decide
theorem test_wf_kmax_above : ¬ Capacity.wf { nmax := 1, kmax := 32768 } := by decide
theorem test_wf_capacity_bounds :
    Capacity.wf { nmax := 1, kmax := 1 } ∧ Capacity.wf { nmax := 65535, kmax := 32767 } := by decide
theorem test_wf_buffer_too_long : ¬ Memory.wf (small [1, 2, 3, 4, 5] []) := by decide
theorem test_wf_key_too_long : ¬ Memory.wf (small [] [1, 2, 3]) := by decide

/-- No word fits two rows of the opcode table: the bits two masks share tell their patterns apart. -/
theorem test_rows_disjoint : Row.commands.Pairwise fun p q =>
    p.pattern &&& (p.mask &&& q.mask) ≠ q.pattern &&& (p.mask &&& q.mask) := by decide

/-! ### Decoding, on words written out from 30_encoding.md R62 -/

theorem test_decode_nop : decode 0x0000000000 = .ok .nop := by decide
theorem test_decode_clrs : decode 0x0100000000 = .ok .clrs := by decide
theorem test_decode_pushs : decode 0x0200000049 = .ok (.pushs 0x49) := by decide
theorem test_decode_rds : decode 0x0300060000 = .ok (.rds 6) := by decide
theorem test_decode_clrk : decode 0x0400000000 = .ok .clrk := by decide
theorem test_decode_pushk : decode 0x05000000FE = .ok (.pushk 0xFE) := by decide
theorem test_decode_getlen : decode 0x0600000000 = .ok .getlen := by decide
theorem test_decode_getklen : decode 0x0700000000 = .ok .getklen := by decide
theorem test_decode_geterr : decode 0x0800000000 = .ok .geterr := by decide
theorem test_decode_clrerr : decode 0x0900000000 = .ok .clrerr := by decide
theorem test_decode_rotr : decode 0x1000020006 = .ok (.rotr 2 6) := by decide
theorem test_decode_rotl : decode 0x118001FFFE = .ok (.rotl 0x8001 0xFFFE) := by decide
theorem test_decode_swap : decode 0x1200090010 = .ok (.swap 9 16) := by decide
theorem test_decode_rots : decode 0x1300000000 = .ok .rots := by decide
theorem test_decode_urots : decode 0x1400000000 = .ok .urots := by decide
theorem test_decode_move : decode 0x2000030005 = .ok (.move 3 5) := by decide
theorem test_decode_rmove : decode 0x210007000F = .ok (.rmove 7 15) := by decide
theorem test_decode_getmc : decode 0x30FFFD0000 = .ok (.getmc 65533) := by decide
theorem test_decode_getrk : decode 0x3100010004 = .ok (.getrk 1 4) := by decide
theorem test_decode_getshift : decode 0x3200000000 = .ok .getshift := by decide
theorem test_decode_diff : decode 0x4000010000 = .ok (.diff 1) := by decide
theorem test_decode_mix : decode 0x4100000000 = .ok .mix := by decide
theorem test_decode_rmix : decode 0x4200000000 = .ok .rmix := by decide
theorem test_decode_rndf : decode 0x5001000000 = .ok (.rndf 256) := by decide
theorem test_decode_rndr : decode 0x51FFFF0000 = .ok (.rndr 65535) := by decide
theorem test_decode_enc : decode 0x52000A0000 = .ok (.enc 10) := by decide
theorem test_decode_dec : decode 0x5301010000 = .ok (.dec 257) := by decide

theorem test_decode_mc0 : decodeMoveCode 0b0000#4 = .mc0 := by decide
theorem test_decode_mc1 : decodeMoveCode 0b0001#4 = .mc1 := by decide
theorem test_decode_mc2 : decodeMoveCode 0b0010#4 = .mc2 := by decide
theorem test_decode_mc3 : decodeMoveCode 0b0011#4 = .mc3 := by decide
theorem test_decode_mc4 : decodeMoveCode 0b0100#4 = .mc4 := by decide
theorem test_decode_mc5 : decodeMoveCode 0b0101#4 = .mc5 := by decide
theorem test_decode_mc6 : decodeMoveCode 0b0110#4 = .mc6 := by decide
theorem test_decode_mc7 : decodeMoveCode 0b0111#4 = .mc7 := by decide
theorem test_decode_mc8 : decodeMoveCode 0b1000#4 = .mc8 := by decide
theorem test_decode_mc9 : decodeMoveCode 0b1001#4 = .mc9 := by decide
theorem test_decode_mc10 : decodeMoveCode 0b1010#4 = .mc10 := by decide
theorem test_decode_mc11 : decodeMoveCode 0b1011#4 = .mc11 := by decide
theorem test_decode_mc12 : decodeMoveCode 0b1100#4 = .mc12 := by decide
theorem test_decode_mc13 : decodeMoveCode 0b1101#4 = .mc13 := by decide
theorem test_decode_mc14 : decodeMoveCode 0b1110#4 = .mc14 := by decide
theorem test_decode_mc15 : decodeMoveCode 0b1111#4 = .mc15 := by decide

theorem test_decode_gap : decode 0x0A00000000 = .error .unknownOpcode := by decide
theorem test_decode_last_opcode : decode 0xFF00000000 = .error .unknownOpcode := by decide
theorem test_decode_nop_reserved : decode 0x0000000001 = .error .reservedBits := by decide
theorem test_decode_pushs_bit8 : decode 0x0200000100 = .error .reservedBits := by decide
theorem test_decode_rds_b : decode 0x0300000001 = .error .reservedBits := by decide
theorem test_encode_move : encode (.move 3 5) = .command 0x2000030005 := by decide
theorem test_encode_pushs : encode (.pushs 0x49) = .command 0x0200000049 := by decide
theorem test_encode_mc10 : encode .mc10 = .moveCode 0b1010#4 := by decide
theorem test_table_word_command : decodeTableWord 40 0x3100010004 = some (.getrk 1 4) := by decide
theorem test_table_word_illegal : decodeTableWord 40 0x2000000010 = none := by decide
theorem test_table_word_moveCode : decodeTableWord 8 11 = some .mc11 := by decide
theorem test_table_word_moveCode_high_bits : decodeTableWord 8 16 = none := by decide

/-- Range, direction and swap of code 5 = 0101 at length 7 (V4, V23): `[3, 7)`, right, swap. -/
theorem test_code_fields : (moveLo 5 7, moveHi 5 7, forwardClockwise 5, codeB3 5) = (3, 7, true, true) := by
  decide

/-! ### The assembler lines of 30_encoding.md R70 -/

theorem test_asm_two_operands :
    assembleLine ['R', 'O', 'T', 'R', ' ', '2', ',', ' ', '6'] = .ok [0x1000020006] := by rfl
theorem test_asm_binary_code :
    assembleLine ['M', 'O', 'V', 'E', ' ', '3', ',', ' ', '0', 'b', '0', '1', '0', '1'] =
      .ok [0x2000030005] := by rfl
theorem test_asm_byte_in_b :
    assembleLine ['P', 'U', 'S', 'H', 'S', ' ', '0', 'x', '4', '9', ' ', ';', 'v'] =
      .ok [0x0200000049] := by rfl
theorem test_asm_byte_too_wide :
    assembleLine ['P', 'U', 'S', 'H', 'S', ' ', '2', '5', '6'] = .error .badOperands := by rfl
theorem test_asm_binary_only_for_codes :
    assembleLine ['R', 'D', 'S', ' ', '0', 'b', '1'] = .error .badOperands := by rfl
theorem test_asm_comment_only : assembleLine [' ', ';', ' ', 'x'] = .ok [] := by rfl
theorem test_asm_unknown : assembleLine ['J', 'M', 'P'] = .error .unknownMnemonic := by rfl

/-! ### Buffer access and system commands -/

theorem test_nop : answers (exec .nop (loaded [1] [2])) = some [0x000000] := by decide
theorem test_clrs : stateAfter (exec .clrs (loaded [1, 2] [3])) = some [] := by decide
theorem test_clrs_keeps_key : keyAfter (exec .clrs (loaded [1, 2] [3])) = some [3] := by decide
/-- V8. -/
theorem test_pushs : stateAfter (exec (.pushs 0x54) (loaded [0x49] [])) = some [0x49, 0x54] := by decide
/-- P5 step 12. -/
theorem test_pushs_full : answers (exec (.pushs 5) (small [1, 2, 3, 4] [])) = some [0x040000] := by decide
/-- V9. -/
theorem test_rds : answers (exec (.rds 1) (loaded [0x49, 0x54] [])) = some [0x000054] := by decide
/-- V10. -/
theorem test_rds_range : (answers (exec (.rds 2) (loaded [0x49, 0x54] [])),
    errAfter (exec (.rds 2) (loaded [0x49, 0x54] []))) = (some [0x030000], some 3) := by decide
theorem test_clrk : keyAfter (exec .clrk (loaded [1] [2])) = some [] := by decide
theorem test_pushk : keyAfter (exec (.pushk 0x79) (loaded [] [0x50])) = some [0x50, 0x79] := by decide
/-- P5 step 15. -/
theorem test_pushk_full : answers (exec (.pushk 2) (small [] [0x6B, 1])) = some [0x040000] := by decide
/-- P5 step 13. -/
theorem test_getlen : answers (exec .getlen (small [1, 2, 3, 4] [])) = some [0x000004] := by decide
/-- V32. -/
theorem test_getklen : answers (exec .getklen (loaded [] [0x09, 0x41])) = some [0x000002] := by decide
/-- V11. -/
theorem test_geterr : answers (exec .geterr { loaded [] [] with err := .range }) = some [0x000003] := by decide
theorem test_geterr_keeps : errAfter (exec .geterr { loaded [] [] with err := .range }) = some 3 := by decide
/-- V11. -/
theorem test_clrerr : errAfter (exec .clrerr { loaded [] [] with err := .range }) = some 0 := by decide
/-- V60: the first code stays, the response carries the new one. -/
theorem test_err_sticky : (errAfter (exec (.rds 0) { loaded [] [] with err := .overflow }),
    answers (exec (.rds 0) { loaded [] [] with err := .overflow })) = (some 4, some [0x030000]) := by decide

/-! ### Permutation -/

/-- V13. -/
theorem test_rotr : stateAfter (exec (.rotr 2 6) (loaded tens [])) =
    some [10, 20, 60, 30, 40, 50, 70, 80] := by decide
/-- V17. -/
theorem test_rotr_guard : (stateAfter (exec (.rotr 6 9) (loaded tens [])),
    answers (exec (.rotr 6 9) (loaded tens []))) = (some tens, some [0x000000]) := by decide
/-- V14. -/
theorem test_rotl : stateAfter (exec (.rotl 2 6) (loaded tens [])) =
    some [10, 20, 40, 50, 60, 30, 70, 80] := by decide
/-- V18. -/
theorem test_rotl_guard : stateAfter (exec (.rotl 6 2) (loaded tens [])) = some tens := by decide
/-- V20. -/
theorem test_swap : stateAfter (exec (.swap 9 16) (loaded tens [])) =
    some [20, 10, 30, 40, 50, 60, 70, 80] := by decide
/-- V56. -/
theorem test_swap_empty : answers (exec (.swap 0 0) (loaded [] [])) = some [0x010000] := by decide
/-- V22. -/
theorem test_rots : stateAfter (exec .rots (loaded tens [3])) =
    some [60, 70, 80, 10, 20, 30, 40, 50] := by decide
/-- V55. -/
theorem test_rots_no_key : stateAfter (exec .rots (loaded [1, 2, 3, 4] [])) = some [1, 2, 3, 4] := by decide
/-- After V22. -/
theorem test_urots : stateAfter (exec .urots (loaded tens [3])) =
    some [40, 50, 60, 70, 80, 10, 20, 30] := by decide
/-- V56. -/
theorem test_urots_empty : answers (exec .urots (loaded [] [])) = some [0x010000] := by decide

/-! ### Moves and MoveCodes -/

/-- V28. -/
theorem test_move : stateAfter (exec (.move 3 5) (loaded seven [])) = some [1, 3, 2, 7, 4, 5, 6] := by decide
/-- V24, code 9. -/
theorem test_move_round : stateAfter (exec (.move 5 9) (loaded tens [])) =
    some [20, 30, 40, 10, 50, 60, 80, 70] := by decide
/-- V28. -/
theorem test_rmove : stateAfter (exec (.rmove 3 5) (loaded seven [])) = some [1, 3, 2, 5, 6, 7, 4] := by decide
/-- P4 step 6. -/
theorem test_rmove_length_one : stateAfter (exec (.rmove 7 15) (loaded [0x41] python)) = some [0x41] := by decide

/-! V23: each MoveCode in round 3, forward from the State of V23 and back to it. -/

theorem test_mc0 : stateAfter (exec .mc0 (running seven [0] .rndf .move 3 0)) =
    some [1, 2, 3, 5, 6, 7, 4] := by decide
theorem test_mc0_reverse : stateAfter (exec .mc0 (running [1, 2, 3, 5, 6, 7, 4] [0] .rndr .rmove 3 1)) =
    some seven := by decide
theorem test_mc1 : stateAfter (exec .mc1 (running seven [0] .rndf .move 3 0)) =
    some [1, 2, 3, 5, 7, 6, 4] := by decide
theorem test_mc1_reverse : stateAfter (exec .mc1 (running [1, 2, 3, 5, 7, 6, 4] [0] .rndr .rmove 3 1)) =
    some seven := by decide
theorem test_mc2 : stateAfter (exec .mc2 (running seven [0] .rndf .move 3 0)) =
    some [1, 2, 3, 7, 4, 5, 6] := by decide
theorem test_mc2_reverse : stateAfter (exec .mc2 (running [1, 2, 3, 7, 4, 5, 6] [0] .rndr .rmove 3 1)) =
    some seven := by decide
theorem test_mc3 : stateAfter (exec .mc3 (running seven [0] .rndf .move 3 0)) =
    some [6, 2, 3, 7, 4, 5, 1] := by decide
theorem test_mc3_reverse : stateAfter (exec .mc3 (running [6, 2, 3, 7, 4, 5, 1] [0] .rndr .rmove 3 1)) =
    some seven := by decide
theorem test_mc4 : stateAfter (exec .mc4 (running seven [0] .rndf .move 3 0)) =
    some [1, 2, 3, 7, 4, 5, 6] := by decide
theorem test_mc4_reverse : stateAfter (exec .mc4 (running [1, 2, 3, 7, 4, 5, 6] [0] .rndr .rmove 3 1)) =
    some seven := by decide
theorem test_mc5 : stateAfter (exec .mc5 (running seven [0] .rndf .move 3 0)) =
    some [1, 3, 2, 7, 4, 5, 6] := by decide
theorem test_mc5_reverse : stateAfter (exec .mc5 (running [1, 3, 2, 7, 4, 5, 6] [0] .rndr .rmove 3 1)) =
    some seven := by decide
theorem test_mc6 : stateAfter (exec .mc6 (running seven [0] .rndf .move 3 0)) =
    some [1, 2, 3, 5, 6, 7, 4] := by decide
theorem test_mc6_reverse : stateAfter (exec .mc6 (running [1, 2, 3, 5, 6, 7, 4] [0] .rndr .rmove 3 1)) =
    some seven := by decide
theorem test_mc7 : stateAfter (exec .mc7 (running seven [0] .rndf .move 3 0)) =
    some [1, 2, 3, 6, 5, 7, 4] := by decide
theorem test_mc7_reverse : stateAfter (exec .mc7 (running [1, 2, 3, 6, 5, 7, 4] [0] .rndr .rmove 3 1)) =
    some seven := by decide
theorem test_mc8 : stateAfter (exec .mc8 (running seven [0] .rndf .move 3 0)) =
    some [2, 3, 1, 4, 5, 6, 7] := by decide
theorem test_mc8_reverse : stateAfter (exec .mc8 (running [2, 3, 1, 4, 5, 6, 7] [0] .rndr .rmove 3 1)) =
    some seven := by decide
theorem test_mc9 : stateAfter (exec .mc9 (running seven [0] .rndf .move 3 0)) =
    some [2, 3, 1, 4, 5, 7, 6] := by decide
theorem test_mc9_reverse : stateAfter (exec .mc9 (running [2, 3, 1, 4, 5, 7, 6] [0] .rndr .rmove 3 1)) =
    some seven := by decide
theorem test_mc10 : stateAfter (exec .mc10 (running seven [0] .rndf .move 3 0)) =
    some [3, 1, 2, 4, 5, 6, 7] := by decide
theorem test_mc10_reverse : stateAfter (exec .mc10 (running [3, 1, 2, 4, 5, 6, 7] [0] .rndr .rmove 3 1)) =
    some seven := by decide
theorem test_mc11 : stateAfter (exec .mc11 (running seven [0] .rndf .move 3 0)) =
    some [1, 3, 2, 4, 5, 6, 7] := by decide
theorem test_mc11_reverse : stateAfter (exec .mc11 (running [1, 3, 2, 4, 5, 6, 7] [0] .rndr .rmove 3 1)) =
    some seven := by decide
theorem test_mc12 : stateAfter (exec .mc12 (running seven [0] .rndf .move 3 0)) =
    some [3, 1, 2, 4, 5, 6, 7] := by decide
theorem test_mc12_reverse : stateAfter (exec .mc12 (running [3, 1, 2, 4, 5, 6, 7] [0] .rndr .rmove 3 1)) =
    some seven := by decide
theorem test_mc13 : stateAfter (exec .mc13 (running seven [0] .rndf .move 3 0)) =
    some [3, 1, 4, 2, 5, 6, 7] := by decide
theorem test_mc13_reverse : stateAfter (exec .mc13 (running [3, 1, 4, 2, 5, 6, 7] [0] .rndr .rmove 3 1)) =
    some seven := by decide
theorem test_mc14 : stateAfter (exec .mc14 (running seven [0] .rndf .move 3 0)) =
    some [2, 3, 1, 4, 5, 6, 7] := by decide
theorem test_mc14_reverse : stateAfter (exec .mc14 (running [2, 3, 1, 4, 5, 6, 7] [0] .rndr .rmove 3 1)) =
    some seven := by decide
theorem test_mc15 : stateAfter (exec .mc15 (running seven [0] .rndf .move 3 0)) =
    some [2, 3, 1, 4, 6, 5, 7] := by decide
theorem test_mc15_reverse : stateAfter (exec .mc15 (running [2, 3, 1, 4, 6, 5, 7] [0] .rndr .rmove 3 1)) =
    some seven := by decide

/-- V42, V43: ENC 1 at its start and at two of its moves, one step each. -/
theorem test_step_rot : (stateAfter (step (running [0x49, 0x54, 0x45, 0x43, 0x36, 0x31, 0x38] python (.enc 1) .rot 0 0)),
    seqAfter (step (running [0x49, 0x54, 0x45, 0x43, 0x36, 0x31, 0x38] python (.enc 1) .rot 0 0))) =
    (some [0x45, 0x43, 0x36, 0x31, 0x38, 0x49, 0x54], some (.running (.enc 1) .move 0 0)) := by decide
theorem test_step_move : (stateAfter (step (running [0x45, 0x43, 0x36, 0x31, 0x49, 0x38, 0x54] python (.enc 1) .move 0 2)),
    seqAfter (step (running [0x45, 0x43, 0x36, 0x31, 0x49, 0x38, 0x54] python (.enc 1) .move 0 2))) =
    (some [0x43, 0x45, 0x36, 0x49, 0x38, 0x54, 0x31], some (.running (.enc 1) .move 0 3)) := by decide
theorem test_step_diff : stateAfter (step (running [0x45, 0x36, 0x49, 0x31, 0x43, 0x38, 0x54] python (.enc 1) .diff 0 0)) =
    some [0x77, 0x1C, 0xD9, 0x2C, 0xB4, 0xE1, 0x6C] := by decide
theorem test_step_mix : (stateAfter (step (running [0x77, 0x1C, 0xD9, 0x2C, 0xB4, 0xE1, 0x6C] python (.enc 1) .mix 0 0)),
    answers (step (running [0x77, 0x1C, 0xD9, 0x2C, 0xB4, 0xE1, 0x6C] python (.enc 1) .mix 0 0))) =
    (some [0x53, 0x2F, 0x98, 0x84, 0x78, 0x69, 0x95], some [0x000000]) := by decide
/-- V44: DEC 1 at its first and at its last micro-operation. -/
theorem test_step_rmix : stateAfter (step (running [0x53, 0x2F, 0x98, 0x84, 0x78, 0x69, 0x95] python (.dec 1) .rmix 0 0)) =
    some [0x77, 0x1C, 0xD9, 0x2C, 0xB4, 0xE1, 0x6C] := by decide
theorem test_step_unrot : (stateAfter (step (running [0x45, 0x43, 0x36, 0x31, 0x38, 0x49, 0x54] python (.dec 1) .unrot 0 0)),
    seqAfter (step (running [0x45, 0x43, 0x36, 0x31, 0x38, 0x49, 0x54] python (.dec 1) .unrot 0 0))) =
    (some [0x49, 0x54, 0x45, 0x43, 0x36, 0x31, 0x38], some .idle) := by decide
/-- 45 R159: DEC with no rounds starts at `UNROT`. -/
theorem test_step_start_dec0 : seqAfter (step { loaded [1, 2] [3] with port := [.sequenced 0x5300000000] }) =
    some (.running (.dec 0) .unrot 0 0) := by decide

/-! ### Key schedule -/

/-- V29. -/
theorem test_getmc : answers (exec (.getmc 9) (loaded [] python)) = some [0x00000F] := by decide
theorem test_getmc_range : answers (exec (.getmc 12) (loaded [] python)) = some [0x030000] := by decide
/-- V30. -/
theorem test_getrk : answers (exec (.getrk 1 4) (loaded seven python)) = some [0x0000F8] := by decide
/-- V31. -/
theorem test_getrk_wraps : answers (exec (.getrk 65535 6) (loaded seven python)) = some [0x000037] := by decide
/-- V53. -/
theorem test_getrk_key_first : answers (exec (.getrk 0 9) (loaded [1, 2, 3, 4] [])) = some [0x020000] := by decide
/-- V30. -/
theorem test_getshift : answers (exec .getshift (loaded seven python)) = some [0x000005] := by decide
/-- V32. -/
theorem test_leading_zero_nibble : moveCodes [0x09, 0x41] = [0, 9, 4, 1] := by decide

/-! ### Diffusion and mixing -/

/-- V38. -/
theorem test_diff : stateAfter (exec (.diff 0) (loaded [0x45, 0x36, 0x49, 0x31, 0x43, 0x38, 0x54] python)) =
    some [0x77, 0x1C, 0xD9, 0x2C, 0xB4, 0xE1, 0x6C] := by decide
theorem test_diff_no_key : answers (exec (.diff 0) (loaded [] [])) = some [0x020000] := by decide
/-- V35. -/
theorem test_mix : stateAfter (exec .mix (loaded [255, 128, 0, 77] [])) = some [60, 188, 188, 217] := by decide
/-- V33. -/
theorem test_mix_length_one : stateAfter (exec .mix (loaded [133] [])) = some [90] := by decide
/-- V36. -/
theorem test_rmix : stateAfter (exec .rmix (loaded [0, 255] [])) = some [225, 15] := by decide
/-- V33. -/
theorem test_rmix_length_one : stateAfter (exec .rmix (loaded [146] [])) = some [0] := by decide

/-! ### Orchestrator -/

/-- P2 step 24. -/
theorem test_rndf : stateAfter (exec (.rndf 0) (loaded [0x42, 0x41] [0x6B])) = some [0x54, 0xA7] := by decide
/-- V52. -/
theorem test_rndf_no_key : answers (exec (.rndf 0) (loaded [1, 2, 3, 4] [])) = some [0x020000] := by decide
/-- P3 step 22. -/
theorem test_rndr : stateAfter (exec (.rndr 0) (loaded [0x19, 0x56, 0xD0, 0xCA] [0x41, 0x42])) =
    some [0xAD, 0xBE, 0xEF, 0xDE] := by decide
/-- P3 step 15. -/
theorem test_enc : stateAfter (exec (.enc 2) (loaded [0xDE, 0xAD, 0xBE, 0xEF] [0x41, 0x42])) =
    some [0x6F, 0x94, 0x33, 0xD8] := by decide
/-- V51. -/
theorem test_enc_empty : answers (exec (.enc 10) (loaded [] [])) = some [0x010000] := by decide
/-- P3 step 14. -/
theorem test_dec : stateAfter (exec (.dec 2) (loaded [0x6F, 0x94, 0x33, 0xD8] [0x41, 0x42])) =
    some [0xDE, 0xAD, 0xBE, 0xEF] := by decide
/-- The rule of V34 with the round key of V32. -/
theorem test_dec_length_one : stateAfter (exec (.dec 1) (loaded [0x16] [0x6B])) = some [0x60] := by decide

/-! ### Host adapter -/

/-- V40's host result. -/
theorem test_bytesToHex : bytesToHex [0x94, 0x2C, 0xF7] = ['9', '4', '2', 'c', 'f', '7'] := by decide
/-- V66: upper-case digits are accepted. -/
theorem test_hexToBytes : (hexToBytes ['9', '4', '2', 'C']).toOption = some [0x94, 0x2C] := by decide
/-- V62. -/
theorem test_hexToBytes_odd : (hexToBytes ['9', '4', '2']).toOption = none := by decide
theorem test_hexToBytes_bad : (hexToBytes ['9', 'g']).toOption = none := by decide
/-- V64. -/
theorem test_lossy_refused : (textToBytes .refuse [256]).toOption = none := by decide
theorem test_lossy_truncated : (textToBytes .truncate [256]).toOption = some [0x00] := by decide
/-- V61, V63. -/
theorem test_encrypt_empty : hostEncrypt .refuse State.reset [] [0x50] 10 = .error .emptyState := by rfl
theorem test_encrypt_negative : hostEncrypt .refuse State.reset [0x49] [0x50] (-1) = .error .invalidRounds := by rfl
/-- V62. -/
theorem test_decrypt_malformed : hostDecrypt State.reset ['9', 'g'] [0x50] 10 = .error .malformedHex := by rfl

/-! ### Witnesses: for each statement with hypotheses, a state and operands that meet them together,
clause by clause and at the ends of their ranges -/

/-- A full engine of P5, and one of its macro commands half way. -/
def full : State := small [1, 2, 3, 4] [0x6B, 1]

/-- The engine idle with host events to come. -/
def atPort (events : List PortEvent) : State := { loaded [1, 2] [0x6B] with port := events }

/-- `RNDF 3` at its second and last move, with host events to come. -/
def busy (events : List PortEvent) : State :=
  { running [1, 2] [0x6B] .rndf .move 3 1 with port := events }

/-- The `encoded…` clauses: legal and illegal operand fields at their boundaries. -/
theorem test_witness_encoded_clauses :
    ((0xFFFF : Half).toNat < 65536 ∧ (255 : Half).toNat < 256 ∧ ¬ (256 : Half).toNat < 256) ∧
    ((15 : Half).toNat < 16 ∧ ¬ (16 : Half).toNat < 16) ∧ ((0 : Half) = 0 ∧ (1 : Half) ≠ 0) := by decide

theorem test_witness_AssemblerGivesCommandWord :
    encode (.rds 4) = .command 0x0300040000 ∧ encode .mix = .command 0x4100000000 := by decide

theorem test_witness_EncodeOfDecodeIsIdentity : decode 0x20FFFF000F = .ok (.move 65535 15) := by decide

theorem test_witness_StepRunsPresentedCommand :
    (atPort [.command 0x0000000000]).seq = .idle ∧
    (atPort [.command 0x0000000000]).port = .command 0x0000000000 :: [] ∧
    decode 0x0000000000 = .ok .nop := by decide

theorem test_witness_StepRunsFetchedMoveCode :
    ((busy []).seq = .running .rndf .move 3 1 ∧ (moveCodes (busy []).K)[1]? = some 11 ∧ (busy []).port = []) ∧
    ((running [1, 2] [0x6B] .rndr .rmove 3 0).seq = .running .rndr .rmove 3 0 ∧
      (moveCodes [0x6B])[0]? = some 6 ∧ (busy [.quiet]).port = .quiet :: []) := by decide

theorem test_witness_PlacedWordIsNextInstruction :
    decodeTableWord 40 0x0000000000 = some .nop ∧ decodeTableWord 40 0x53FFFF0000 = some (.dec 65535) ∧
    decodeTableWord 8 0 = some .mc0 ∧ decodeTableWord 8 15 = some .mc15 ∧
    (full.S ≠ [] ∧ (loaded [] []).S = []) := by decide

theorem test_witness_IllegalWordChangesOnlyErr :
    (atPort [.command 0x0A00000000]).seq = .idle ∧
    (atPort [.command 0x0A00000000]).port = .command 0x0A00000000 :: [] ∧
    CmdWord.wellFormed 0x0A00000000 = false := by decide

theorem test_witness_ResetEventClearsEngine :
    (busy [.reset]).port = .reset :: [] ∧ (atPort [.reset]).port = .reset :: [] := by decide

theorem test_witness_IdleEngineKeepsState :
    ((atPort []).seq = .idle ∧ (atPort []).port = []) ∧
    ((atPort [.quiet]).seq = .idle ∧ (atPort [.quiet]).port = .quiet :: []) := by decide

theorem test_witness_CommandsWaitForTheEngine :
    ((busy [.command 0]).seq ≠ .idle ∧ (busy [.command 0]).port = .command 0 :: [] ∧
      (nextState (step (busy [.command 0]))).isSome) ∧
    ((busy [.sequenced 0]).seq ≠ .idle ∧ (busy [.sequenced 0]).port = .sequenced 0 :: [] ∧
      (nextState (step (busy [.sequenced 0]))).isSome) := by decide

theorem test_witness_PushAppendsOneByte :
    (small [1, 2, 3] [0x6B]).LEN ≠ 4 ∧ (small [1, 2, 3] [0x6B]).KLEN ≠ 2 ∧
    State.reset.LEN ≠ State.reset.cap.nmax ∧ State.reset.KLEN ≠ State.reset.cap.kmax ∧
    full.LEN = full.cap.nmax ∧ full.KLEN = full.cap.kmax := by decide

theorem test_witness_RdsReadsOneByte :
    (3 : Half).toNat < full.S.length ∧ full.S.length ≤ (4 : Half).toNat := by decide

theorem test_witness_StatusReadsAnswerRegisters : full.Inv ∧ State.reset.Inv ∧ (busy []).Inv := by decide

/-- RotrMovesRange and RotlMovesRange, each clause. -/
theorem test_witness_RotatedRanges :
    ((0 : Half).toNat < (8 : Half).toNat ∧ (8 : Half).toNat ≤ (loaded tens []).LEN) ∧
    ((2 : Half).toNat < 3 ∧ 3 < (6 : Half).toNat ∧ (7 : Half).toNat < (8 : Half).toNat) ∧
    (loaded tens []).LEN < (9 : Half).toNat ∧ (5 : Half).toNat ≤ (5 : Half).toNat := by decide

theorem test_witness_SwapExchangesTwoPositions :
    0 < (loaded [9] []).LEN ∧ 0 < (loaded tens []).LEN ∧ 2 ≠ (9 : Half).toNat % 8 ∧
    2 ≠ (16 : Half).toNat % 8 ∧ State.reset.LEN = 0 := by decide

theorem test_witness_WholeStateRotations :
    (0 < (loaded tens []).LEN ∧ (loaded tens []).K = []) ∧ (0 < (loaded tens [3]).LEN ∧ 7 < (loaded tens [3]).LEN) ∧
    State.reset.LEN = 0 := by decide

theorem test_witness_PrimitivesInvert :
    tens ≠ [] ∧ 0 < tens.length ∧ 7 < tens.length ∧ 0 < (loaded tens [3]).LEN := by decide

/-- MovesRotateAndSwap and MoveIsInvertible. -/
theorem test_witness_Moves : 0 < (loaded [9] []).LEN ∧ seven ≠ [] ∧ State.reset.LEN = 0 := by decide

theorem test_witness_LengthOneMovesChangeNothing : (loaded [9] []).LEN = 1 := by decide

theorem test_witness_MoveCodeInForwardRound :
    (0 < (busy []).LEN ∧ (busy []).seq = .running .rndf .move 3 1 ∧ ¬ 1 + 1 < 2 * (busy []).KLEN) ∧
    (0 < (running [1, 2] [0x6B] (.enc 4) .move 3 0).LEN ∧
      (running [1, 2] [0x6B] (.enc 4) .move 3 0).seq = .running (.enc 4) .move 3 0 ∧
      0 + 1 < 2 * (running [1, 2] [0x6B] (.enc 4) .move 3 0).KLEN) := by decide

theorem test_witness_MoveCodeInReverseRound :
    0 < (running [1, 2] [0x6B] .rndr .rmove 3 1).LEN ∧
    (running [1, 2] [0x6B] .rndr .rmove 3 1).seq = .running .rndr .rmove 3 (0 + 1) := by decide

theorem test_witness_MoveCodeEndsReverseRound :
    (running [1, 2] [0x6B] .rndr .rmove 3 0).seq = .running .rndr .rmove 3 0 ∧
    (running [1, 2] [0x6B] (.dec 2) .rmove 1 0).seq = .running (.dec 2) .rmove 1 0 ∧
    (running [1, 2] [0x6B] (.dec 2) .rmove 0 0).seq = .running (.dec 2) .rmove 0 0 ∧
    0 < (running [1, 2] [0x6B] (.dec 2) .rmove 0 0).LEN := by decide

theorem test_witness_MoveCodeStopsOutsideMovePhase :
    State.reset.seq = .idle ∧
    (running [1, 2] [0x6B] .rndf .diff 3 0).seq = .running .rndf .diff 3 0 ∧
    (Phase.diff ≠ .move ∧ Phase.diff ≠ .rmove) ∧
    (running [] [0x6B] .rndf .move 3 0).seq = .running .rndf .move 3 0 ∧
    (running [] [0x6B] .rndf .move 3 0).LEN = 0 := by decide

theorem test_witness_GetmcReadsNibbles :
    (11 : Half).toNat / 2 < (loaded [] python).K.length ∧ (0 : Half).toNat / 2 < (loaded [] python).K.length ∧
    2 * (loaded [] python).KLEN ≤ (12 : Half).toNat := by decide

theorem test_witness_GetrkAnswersRoundKeyByte :
    (0 < (loaded seven python).K.length ∧ (6 : Half).toNat < (loaded seven python).LEN) ∧
    (loaded seven []).KLEN = 0 ∧
    (0 < (loaded seven python).KLEN ∧ (loaded seven python).LEN ≤ (7 : Half).toNat) := by decide

theorem test_witness_GetshiftAnswersShift :
    ((loaded seven python).Inv ∧ 0 < (loaded seven python).LEN) ∧ (loaded [] python).LEN = 0 := by decide

theorem test_witness_DiffXorsRoundKey :
    (0 < (loaded seven python).K.length ∧ 6 < (loaded seven python).S.length) ∧
    (loaded [] []).KLEN = 0 ∧ (loaded seven []).KLEN = 0 := by decide

theorem test_witness_MixEquations :
    (0 < (loaded seven []).S.length ∧ 5 + 1 < (loaded seven []).S.length ∧
      (stateAfter (exec .mix (loaded seven []))).map List.length = some 7) ∧
    (stateAfter (exec .mix (loaded [9] []))).map List.length = some 1 := by decide

theorem test_witness_RmixEquations :
    (1 < (loaded [1, 2] []).S.length ∧ 0 + 1 < (loaded [1, 2] []).S.length ∧
      (stateAfter (exec .rmix (loaded [1, 2] []))).map List.length = some 2) ∧
    (loaded [9] []).LEN = 1 := by decide

theorem test_witness_MixInverseLaws :
    seven.length = [(1 : Byte), 1, 1, 1, 1, 1, 1].length ∧ seven.length ≠ 1 ∧ ([] : List Byte).length ≠ 1 := by
  decide

/-- MacroCommandsComplete and MacroEqualsExpansion. -/
theorem test_witness_MacroCommands :
    (0 < full.LEN ∧ 0 < full.KLEN) ∧ Instr.enc 3 ∈ [Instr.rndf 3, .rndr 3, .enc 3, .dec 3] ∧
    State.reset.LEN = 0 ∧ (0 < (loaded seven []).LEN ∧ (loaded seven []).KLEN = 0) := by decide

theorem test_witness_DecInvertsEnc :
    (0 < (loaded [1, 2] [0x6B]).KLEN ∧ 2 ≤ (loaded [1, 2] [0x6B]).LEN) ∧
    (0 < (loaded [9] [0x6B]).KLEN ∧ (loaded [9] [0x6B]).LEN = 1 ∧ (0 : Half) = 0) ∧
    (1 : Half) ≠ 0 := by decide

theorem test_witness_ForwardSequenceRefinesCommand :
    ((atPort [.sequenced 0x5200030000]).seq = .idle ∧ 0 < (atPort [.sequenced 0x5200030000]).LEN ∧
      0 < (atPort [.sequenced 0x5200030000]).KLEN ∧
      (atPort [.sequenced 0x5200030000]).port = [.sequenced 0x5200030000]) ∧
    decode 0x5200030000 = .ok (.enc 3) ∧ decode 0x5200000000 = .ok (.enc 0) ∧
    decode 0x5000030000 = .ok (.rndf 3) := by decide

theorem test_witness_ReverseSequenceRefinesCommand :
    ((atPort [.sequenced 0x5300030000]).seq = .idle ∧ 0 < (atPort [.sequenced 0x5300030000]).LEN ∧
      0 < (atPort [.sequenced 0x5300030000]).KLEN ∧
      (atPort [.sequenced 0x5300030000]).port = [.sequenced 0x5300030000]) ∧
    decode 0x5300030000 = .ok (.dec 3) ∧ decode 0x5300000000 = .ok (.dec 0) ∧
    decode 0x5100030000 = .ok (.rndr 3) := by decide

theorem test_witness_EveryCommandAnswersOnce : isCommand .nop = true ∧ isCommand (.dec 65535) = true := by
  decide

/-- A command that faults on an engine whose `ERR` is 0, and one on an engine whose `ERR` is not: for
FaultCodesFollowTable, FaultsArePrecise and ErrKeepsFirstCode. -/
theorem test_witness_Faults : isCommand (.rds 4) = true ∧ (Instr.rds 4) ≠ .clrerr ∧
    (nextState (exec (.rds 4) full)).map (fun t => t.out) = some (full.out ++ [{ err := .range, data := 0 }]) ∧
    ErrCode.range ≠ .ok ∧ full.err = .ok ∧
    (nextState (exec (.rds 4) { full with err := .overflow })).isSome ∧
    ({ full with err := .overflow } : State).err ≠ .ok ∧
    CmdWord.wellFormed 0xFF00000000 = false ∧
    (nextState (step (atPort [.command 0x0300020000]))).map (fun t => t.out) =
      some [{ err := .range, data := 0 }] := by decide

/-- A command that ends without an error, and a micro-operation that gives no response. -/
theorem test_witness_ErrKeepsFirstCode :
    (nextState (exec .mix full)).map (fun t => t.out) = some (full.out ++ [{ err := .ok, data := 0 }]) ∧
    (nextState (exec .mc11 (busy []))).map (fun t => t.out) = some (busy []).out := by decide

theorem test_witness_OnlyTheListedInstructionsWrite :
    (nextState (exec .getshift full)).isSome ∧ (nextState (exec .mc11 (busy []))).isSome ∧
    Instr.getshift ≠ .clrk ∧ Instr.getshift ≠ .clrs := by decide

theorem test_witness_ResetMeetsInvariant : Capacity.wf { nmax := 4, kmax := 2 } := by decide

/-- StepKeepsInvariant, StepNeverStops and CapacityNeverChanges. -/
theorem test_witness_StepKeepsInvariant :
    (busy [.quiet]).Inv ∧ (nextState (step (busy [.quiet]))).isSome := by decide

theorem test_witness_RunningCommandTerminates :
    (busy []).Inv ∧ (busy []).seq ≠ .idle ∧ (busy []).port = [] ∧ (nextState (step (busy []))).isSome := by
  decide

theorem test_witness_OnlyResetAndClearsDiscard :
    (stateAfter (step (atPort [.command 0x0100000000])) = some [] ∧ 0 < (atPort []).LEN) ∧
    (keyAfter (step (atPort [.sequenced 0x0400000000])) = some [] ∧ 0 < (atPort []).KLEN) ∧
    (errAfter (step { atPort [.command 0x0900000000] with err := .range }) = some 0) := by decide

theorem test_witness_HostDecryptInvertsEncrypt :
    State.reset.Inv ∧ State.reset.seq = .idle ∧ (∀ c ∈ [0x49, 255], c < 256) ∧ (∀ c ∈ [0x50], c < 256) ∧
    2 ≤ [0x49, 255].length ∧ ([255].length = 1 ∧ [255].length ≤ State.reset.cap.nmax) ∧ 1 ≤ [0x50].length ∧ [0x49, 255].length ≤ State.reset.cap.nmax ∧
    [0x50].length ≤ State.reset.cap.kmax := by decide

end Sys2Proof.Tests
end

section
/-! Everything that one command, one micro-operation and one step can leave behind, said once, and what
follows for the capacities (00_scope.md R6). -/

namespace Sys2Proof.Machine

/-- The results a command or a micro-operation can have from `s`. None of them writes `cap` or `port`. -/
inductive OutcomeFrom (s : State) : Result → Prop
  /-- The command ends, with or without a fault, in one response. -/
  | ends (S K : List Byte) (e : ErrCode) (r : Response) : OutcomeFrom s (.next (s.endsWith S K e r))
  /-- The sequencer starts, moves on or stays; only it and the State buffer can change. -/
  | goesOn (S : List Byte) (q : Sequencer) : OutcomeFrom s (.next ((s.withS S).withSeq q))
  /-- The machine stops, at a MoveCode or an index that the sequencer does not expect. -/
  | stops (f : Fault) : OutcomeFrom s (.fault f)

variable {s t : State} {o : Result}

/-! ### How a command ends, and its checks -/

theorem outcomeFrom_trap (s : State) (e : ErrCode) : OutcomeFrom s (trap s e) := .ends _ _ _ _

theorem outcomeFrom_complete (s : State) (d : Half) : OutcomeFrom s (complete s d) := .ends _ _ _ _

theorem outcomeFrom_transform (s : State) (f : List Byte → List Byte) : OutcomeFrom s (transform s f) :=
  .ends _ _ _ _

theorem outcomeFrom_needState (h : OutcomeFrom s o) : OutcomeFrom s (needState s o) := by
  unfold needState
  split
  · exact outcomeFrom_trap s _
  · exact h

theorem outcomeFrom_needKey (h : OutcomeFrom s o) : OutcomeFrom s (needKey s o) := by
  unfold needKey
  split
  · exact outcomeFrom_trap s _
  · exact h

theorem outcomeFrom_needBoth (h : OutcomeFrom s o) : OutcomeFrom s (needBoth s o) :=
  outcomeFrom_needState (outcomeFrom_needKey h)

/-! ### The commands with a range or a capacity check -/

theorem outcomeFrom_execPushs (v : Byte) (s : State) : OutcomeFrom s (execPushs v s) := by
  unfold execPushs
  split
  · exact outcomeFrom_trap s _
  · exact .ends _ _ _ _

theorem outcomeFrom_execPushk (v : Byte) (s : State) : OutcomeFrom s (execPushk v s) := by
  unfold execPushk
  split
  · exact outcomeFrom_trap s _
  · exact .ends _ _ _ _

theorem outcomeFrom_execRds (index : Half) (s : State) : OutcomeFrom s (execRds index s) := by
  unfold execRds
  split
  · exact outcomeFrom_complete s _
  · exact outcomeFrom_trap s _

theorem outcomeFrom_execGetmc (j : Half) (s : State) : OutcomeFrom s (execGetmc j s) := by
  unfold execGetmc
  split
  · exact outcomeFrom_complete s _
  · exact outcomeFrom_trap s _

theorem outcomeFrom_execGetrk (r i : Half) (s : State) : OutcomeFrom s (execGetrk r i s) := by
  refine outcomeFrom_needKey ?_
  split
  · exact outcomeFrom_trap s _
  · exact outcomeFrom_complete s _

/-! ### The sequencer: what follows a micro-operation that leaves `S` in the State buffer -/

theorem outcomeFrom_afterMove (s : State) (S : List Byte) (m : Macro) (r j : Nat) :
    OutcomeFrom s (.next (afterMove (s.withS S) m r j)) := by
  unfold afterMove
  split <;> exact .goesOn _ _

theorem outcomeFrom_afterMix (s : State) (S : List Byte) (m : Macro) (r : Nat) :
    OutcomeFrom s (.next (afterMix (s.withS S) m r)) := by
  cases m with
  | enc rounds =>
    unfold afterMix
    dsimp only
    split
    · exact .goesOn _ _
    · exact .ends _ _ _ _
  | rndf | rndr | dec => exact .ends _ _ _ _

theorem outcomeFrom_afterRot (s : State) (S : List Byte) (m : Macro) :
    OutcomeFrom s (.next (afterRot (s.withS S) m)) := by
  cases m with
  | enc rounds =>
    unfold afterRot
    dsimp only
    split
    · exact .goesOn _ _
    · exact .ends _ _ _ _
  | rndf | rndr | dec => exact .ends _ _ _ _

theorem outcomeFrom_afterRmove (s : State) (S : List Byte) (m : Macro) (r j : Nat) :
    OutcomeFrom s (.next (afterRmove (s.withS S) m r j)) := by
  unfold afterRmove
  split
  · exact .goesOn _ _
  · cases m with
    | dec rounds =>
      dsimp only
      split <;> exact .goesOn _ _
    | rndf | rndr | enc => exact .ends _ _ _ _

theorem outcomeFrom_execMoveCode (c : Code) (s : State) : OutcomeFrom s (execMoveCode c s) := by
  unfold execMoveCode
  split
  · exact outcomeFrom_needState (outcomeFrom_afterMove s _ _ _ _)
  · exact outcomeFrom_needState (outcomeFrom_afterRmove s _ _ _ _)
  · exact .stops _

theorem outcomeFrom_microDiff (s : State) (r : Nat) (next : Sequencer) :
    OutcomeFrom s (microDiff s r next) :=
  outcomeFrom_needKey (.goesOn _ _)

/-! ### Any instruction, any micro-operation, any command word -/

theorem outcomeFrom_exec (i : Instr) (s : State) : OutcomeFrom s (exec i s) := by
  cases i with
  | nop | clrs | clrk | getlen | getklen | geterr | clrerr => exact .ends _ _ _ _
  | pushs v => exact outcomeFrom_execPushs v s
  | pushk v => exact outcomeFrom_execPushk v s
  | rds index => exact outcomeFrom_execRds index s
  | getmc j => exact outcomeFrom_execGetmc j s
  | getrk r i => exact outcomeFrom_execGetrk r i s
  | getshift => exact outcomeFrom_needState (outcomeFrom_complete s _)
  | rotr | rotl | mix | rmix => exact .ends _ _ _ _
  | swap | rots | urots | move | rmove => exact outcomeFrom_needState (outcomeFrom_transform s _)
  | diff => exact outcomeFrom_needKey (outcomeFrom_transform s _)
  | rndf | rndr | enc | dec => exact outcomeFrom_needBoth (outcomeFrom_transform s _)
  | mc0 | mc1 | mc2 | mc3 | mc4 | mc5 | mc6 | mc7 | mc8 | mc9 | mc10 | mc11 | mc12 | mc13 | mc14
  | mc15 => exact outcomeFrom_execMoveCode _ s

theorem outcomeFrom_microStep (s : State) : OutcomeFrom s (microStep s) := by
  unfold microStep
  split
  · exact .goesOn s.S s.seq
  · next m phase r j _ =>
    cases phase with
    | rot => exact outcomeFrom_needState (outcomeFrom_afterRot s _ m)
    | move | rmove =>
      dsimp only
      split
      · exact outcomeFrom_exec _ s
      · exact .stops _
    | diff | rdiff => exact outcomeFrom_microDiff s r _
    | mix => exact outcomeFrom_afterMix s _ m r
    | rmix => exact .goesOn _ _
    | unrot => exact outcomeFrom_needState (outcomeFrom_transform s _)

theorem outcomeFrom_runCommand (cw : CmdWord) (s : State) : OutcomeFrom s (runCommand cw s) := by
  unfold runCommand
  split
  · exact outcomeFrom_exec _ s
  · exact outcomeFrom_trap s _

theorem outcomeFrom_startCommand (cw : CmdWord) (s : State) : OutcomeFrom s (startCommand cw s) := by
  obtain ⟨_, _, h⟩ | ⟨_, q, _, _, h⟩ | ⟨i, _, _, h⟩ := startCommand_eq cw s <;> rw [h]
  · exact outcomeFrom_trap s _
  · exact outcomeFrom_needBoth (.goesOn s.S q)
  · exact outcomeFrom_exec i s

theorem OutcomeFrom.cap_eq (h : OutcomeFrom s (.next t)) : t.cap = s.cap := by
  cases h with
  | ends | goesOn => rfl

/-- Everything a step can do: the Reset event, or a command or micro-operation from `s` with or without
its first port event. -/
theorem step_outcome (s : State) :
    (∃ rest, s.port = .reset :: rest ∧ step s = .next (s.withPort rest).resetEvent) ∨
    ∃ p, (p = s.port ∨ p = s.port.tail) ∧ OutcomeFrom (s.withPort p) (step s) := by
  obtain ⟨_, h⟩ | ⟨rest, hp, h⟩ | ⟨rest, hp, h⟩ | ⟨cw, rest, hp, _, h⟩ | ⟨cw, rest, hp, _, h⟩ |
    ⟨_, _, _, _, h⟩ := step_cases s
  · exact .inr ⟨s.port, .inl rfl, h ▸ outcomeFrom_microStep s⟩
  · exact .inl ⟨rest, hp, h⟩
  · exact .inr ⟨rest, .inr (by simp [hp]), h ▸ outcomeFrom_microStep _⟩
  · exact .inr ⟨rest, .inr (by simp [hp]), h ▸ outcomeFrom_runCommand cw _⟩
  · exact .inr ⟨rest, .inr (by simp [hp]), h ▸ outcomeFrom_startCommand cw _⟩
  · exact .inr ⟨s.port, .inl rfl, h ▸ outcomeFrom_microStep s⟩

/-- Settles O58: neither the Reset event nor any `OutcomeFrom` writes the capacities. -/
theorem capacityNeverChanges : Obligations.CapacityNeverChanges := by
  intro s t h
  obtain ⟨rest, _, hr⟩ | ⟨p, _, ho⟩ := step_outcome s
  · rw [hr] at h
    cases h
    rfl
  · rw [h] at ho
    exact ho.cap_eq

end Sys2Proof.Machine
end

section
/-! What each instruction can write (10_state.md R34), and the invariant of the machine (R32): the reset
state meets it, and every instruction, every micro-operation and every step keeps it. -/

namespace Sys2Proof.Machine

variable {s t : State} {o : Result} {P : State → Prop} {i : Instr}

/-! ### A property of every next state a result can answer -/

/-- If the result is a next state, that state has the property `P`. -/
def EveryNext (P : State → Prop) (o : Result) : Prop := ∀ t, o = .next t → P t

@[simp] theorem everyNext_next : EveryNext P (.next s) ↔ P s := by
  simp [EveryNext]

@[simp] theorem everyNext_fault (f : Fault) : EveryNext P (.fault f) := by
  simp [EveryNext]

theorem everyNext_needState (hf : P (s.faultsWith .emptyState)) (h : 0 < s.LEN → EveryNext P o) :
    EveryNext P (needState s o) := by
  intro t ht
  obtain ⟨_, rfl⟩ | ⟨hpos, ho⟩ := needState_cases ht
  · exact hf
  · exact h hpos t ho

theorem everyNext_needKey (hf : P (s.faultsWith .emptyKey)) (h : 0 < s.KLEN → EveryNext P o) :
    EveryNext P (needKey s o) := by
  intro t ht
  obtain ⟨_, rfl⟩ | ⟨hpos, ho⟩ := needKey_cases ht
  · exact hf
  · exact h hpos t ho

theorem everyNext_needBoth (hf : ∀ e, P (s.faultsWith e))
    (h : 0 < s.LEN → 0 < s.KLEN → EveryNext P o) : EveryNext P (needBoth s o) :=
  everyNext_needState (hf _) fun hS => everyNext_needKey (hf _) (h hS)

/-! ### What an instruction can write -/

/-- The instructions that leave S as it is: reads, NOP, CLRERR and the key commands. -/
def keepsS (i : Instr) : Bool :=
  match i with
  | .nop | .rds _ | .clrk | .pushk _ | .getlen | .getklen | .geterr | .clrerr | .getmc _ | .getrk _ _
  | .getshift => true
  | _ => false

/-- The next states an instruction can answer from `s`, by what it writes in the two buffers. -/
inductive ExecEffect (s : State) (i : Instr) : State → Prop
  /-- A read, or a fault of any command: both buffers stay. -/
  | answers (e : ErrCode) (r : Response) : ExecEffect s i (s.endsWith s.S s.K e r)
  /-- A transform of the State buffer keeps its length. -/
  | transforms (S : List Byte) (r : Response) (hi : keepsS i = false)
      (hS : S.length = s.S.length) : ExecEffect s i (s.endsWith S s.K s.err r)
  | clearsS (r : Response) (hi : i = .clrs) : ExecEffect s i (s.endsWith [] s.K s.err r)
  | pushesS (v : Byte) (r : Response) (hi : i = .pushs v) (hroom : s.LEN ≠ s.cap.nmax) :
      ExecEffect s i (s.endsWith (s.S ++ [v]) s.K s.err r)
  | clearsK (r : Response) (hi : i = .clrk) : ExecEffect s i (s.endsWith s.S [] s.err r)
  | pushesK (v : Byte) (r : Response) (hi : i = .pushk v) (hroom : s.KLEN ≠ s.cap.kmax) :
      ExecEffect s i (s.endsWith s.S (s.K ++ [v]) s.err r)
  /-- A MoveCode of the command in progress. -/
  | moveCode {t : State} (c : Code) (hi : keepsS i = false) (h : execMoveCode c s = .next t) :
      ExecEffect s i t

theorem execEffect_faultsWith (e : ErrCode) : ExecEffect s i (s.faultsWith e) := .answers _ _

theorem everyNext_trap (e : ErrCode) : EveryNext (ExecEffect s i) (trap s e) :=
  everyNext_next.2 (execEffect_faultsWith e)

theorem everyNext_complete (d : Half) : EveryNext (ExecEffect s i) (complete s d) :=
  everyNext_next.2 (.answers _ _)

theorem everyNext_transform {f : List Byte → List Byte} (hi : keepsS i = false)
    (hf : (f s.S).length = s.S.length) : EveryNext (ExecEffect s i) (transform s f) :=
  everyNext_next.2 (.transforms _ _ hi hf)

theorem everyNext_execPushs (v : Byte) : EveryNext (ExecEffect s (.pushs v)) (execPushs v s) := by
  unfold execPushs
  split
  · exact everyNext_trap _
  · next hroom => exact everyNext_next.2 (.pushesS v _ rfl hroom)

theorem everyNext_execPushk (v : Byte) : EveryNext (ExecEffect s (.pushk v)) (execPushk v s) := by
  unfold execPushk
  split
  · exact everyNext_trap _
  · next hroom => exact everyNext_next.2 (.pushesK v _ rfl hroom)

theorem everyNext_execRds (a : Half) : EveryNext (ExecEffect s i) (execRds a s) := by
  unfold execRds
  split
  · exact everyNext_complete _
  · exact everyNext_trap _

theorem everyNext_execGetmc (j : Half) : EveryNext (ExecEffect s i) (execGetmc j s) := by
  unfold execGetmc
  split
  · exact everyNext_complete _
  · exact everyNext_trap _

theorem everyNext_execGetrk (r p : Half) : EveryNext (ExecEffect s i) (execGetrk r p s) := by
  refine everyNext_needKey (execEffect_faultsWith _) fun _ => ?_
  split
  · exact everyNext_trap _
  · exact everyNext_complete _

/-- Every instruction writes only what `ExecEffect` says. -/
theorem exec_effect (i : Instr) (s : State) : EveryNext (ExecEffect s i) (exec i s) := by
  cases i with
  | nop | getlen | getklen | geterr | clrerr => exact everyNext_next.2 (.answers _ _)
  | rds a => exact everyNext_execRds a
  | getmc j => exact everyNext_execGetmc j
  | getrk r p => exact everyNext_execGetrk r p
  | getshift =>
    exact everyNext_needState (execEffect_faultsWith _) fun _ => everyNext_complete _
  | clrs => exact everyNext_next.2 (.clearsS _ rfl)
  | clrk => exact everyNext_next.2 (.clearsK _ rfl)
  | pushs v => exact everyNext_execPushs v
  | pushk v => exact everyNext_execPushk v
  | rotr | rotl | mix | rmix => exact everyNext_next.2 (.transforms _ _ rfl (by simp))
  | swap | rots | urots | move | rmove =>
    exact everyNext_needState (execEffect_faultsWith _) fun _ => everyNext_transform rfl (by simp)
  | diff =>
    exact everyNext_needKey (execEffect_faultsWith _) fun _ => everyNext_transform rfl (by simp)
  | rndf | rndr | enc | dec =>
    exact everyNext_needBoth execEffect_faultsWith fun _ _ => everyNext_transform rfl (by simp)
  | mc0 | mc1 | mc2 | mc3 | mc4 | mc5 | mc6 | mc7 | mc8 | mc9 | mc10 | mc11 | mc12 | mc13 | mc14
  | mc15 => exact fun t h => .moveCode _ rfl h

/-! ### The sequencer's bookkeeping writes no buffer -/

theorem afterMove_buffers (s : State) (m : Macro) (r j : Nat) :
    (afterMove s m r j).S = s.S ∧ (afterMove s m r j).K = s.K := by
  unfold afterMove
  split <;> exact ⟨rfl, rfl⟩

theorem afterRmove_buffers (s : State) (m : Macro) (r j : Nat) :
    (afterRmove s m r j).S = s.S ∧ (afterRmove s m r j).K = s.K := by
  unfold afterRmove
  split
  · exact ⟨rfl, rfl⟩
  · cases m with
    | dec =>
      dsimp only
      split <;> exact ⟨rfl, rfl⟩
    | rndf | rndr | enc => exact ⟨rfl, rfl⟩

/-- A MoveCode only moves bytes of the State buffer. -/
theorem execMoveCode_keeps {c : Code} (h : execMoveCode c s = .next t) :
    t.K = s.K ∧ t.LEN = s.LEN := by
  obtain ⟨_, rfl⟩ | ⟨_, m, r, j, _, rfl⟩ | ⟨_, m, r, j, _, rfl⟩ := execMoveCode_cases h
  · exact ⟨rfl, rfl⟩
  · obtain ⟨hS, hK⟩ := afterMove_buffers (s.withS (applyMove s.S c r)) m r j
    exact ⟨hK, by simp [State.LEN, hS]⟩
  · obtain ⟨hS, hK⟩ := afterRmove_buffers (s.withS (reverseMove s.S c r)) m r j
    exact ⟨hK, by simp [State.LEN, hS]⟩

/-! ### Which instructions write K, LEN and S -/

theorem ExecEffect.K_eq (h : ExecEffect s i t) (hclr : i ≠ .clrk) (hpush : ∀ v, i ≠ .pushk v) :
    t.K = s.K := by
  cases h with
  | answers | transforms | clearsS | pushesS => rfl
  | clearsK _ hi => exact absurd hi hclr
  | pushesK v _ hi => exact absurd hi (hpush v)
  | moveCode _ _ h => exact (execMoveCode_keeps h).1

theorem ExecEffect.LEN_eq (h : ExecEffect s i t) (hclr : i ≠ .clrs) (hpush : ∀ v, i ≠ .pushs v) :
    t.LEN = s.LEN := by
  cases h with
  | answers | clearsK | pushesK => rfl
  | transforms _ _ _ hS => exact hS
  | clearsS _ hi => exact absurd hi hclr
  | pushesS v _ hi => exact absurd hi (hpush v)
  | moveCode _ _ h => exact (execMoveCode_keeps h).2

theorem ExecEffect.S_eq (h : ExecEffect s i t) (hk : keepsS i = true) : t.S = s.S := by
  cases h with
  | answers | clearsK | pushesK => rfl
  | transforms _ _ hi | moveCode _ hi => simp [hi] at hk
  | clearsS _ hi | pushesS _ _ hi =>
    subst hi
    cases hk

/-- Settles O52: by what `exec_effect` says each instruction can write. -/
theorem onlyTheListedInstructionsWrite : Obligations.OnlyTheListedInstructionsWrite := by
  intro i s t h
  have he : ExecEffect s i t := exec_effect i s t h
  refine ⟨he.K_eq, he.LEN_eq, fun hi => he.S_eq ?_⟩
  rcases hi with rfl | ⟨_, rfl⟩ | rfl | ⟨_, rfl⟩ | rfl | rfl | rfl | rfl | ⟨_, rfl⟩ | ⟨_, _, rfl⟩ |
    rfl <;> rfl

/-! ### The reset state -/

/-- Settles O12, by computation: none of these values depends on the capacities. -/
theorem resetStateValues : Obligations.ResetStateValues := fun _ => ⟨rfl, rfl, rfl, rfl⟩

theorem inv_resetWith {cap : Capacity} (h : cap.wf) : (State.resetWith cap).Inv :=
  ⟨h, Memory.wf_resetWith cap, rfl⟩

/-- Settles O53: empty buffers fit and the sequencer is idle. -/
theorem resetMeetsInvariant : Obligations.ResetMeetsInvariant :=
  ⟨fun _ => inv_resetWith, inv_resetWith (by decide)⟩

/-! ### The invariant over the updates of the state -/

theorem inv_withPort (hi : s.Inv) (p : List PortEvent) : (s.withPort p).Inv := hi

theorem inv_resetEvent (hi : s.Inv) : s.resetEvent.Inv := by
  obtain ⟨hcap, _, _⟩ := hi
  exact ⟨hcap, Memory.wf_resetEvent s, rfl⟩

theorem inv_respond (hi : s.Inv) (d : Half) : (s.respond d).Inv := by
  obtain ⟨hcap, hmem, _⟩ := hi
  exact ⟨hcap, Memory.wf_respond hmem d, rfl⟩

theorem inv_faultsWith (hi : s.Inv) (e : ErrCode) : (s.faultsWith e).Inv := by
  obtain ⟨hcap, hmem, _⟩ := hi
  exact ⟨hcap, Memory.wf_raise hmem e, rfl⟩

theorem seqOk_withS {S : List Byte} (hS : S.length = s.S.length) : (s.withS S).seqOk = s.seqOk := by
  have hL : (s.withS S).LEN = s.LEN := hS
  unfold State.seqOk
  rw [hL]
  rfl

theorem inv_withS (hi : s.Inv) {S : List Byte} (hS : S.length = s.S.length) : (s.withS S).Inv := by
  obtain ⟨hcap, hmem, hseq⟩ := hi
  exact ⟨hcap, Memory.wf_withS hmem (hS ▸ hmem.1), (seqOk_withS hS).trans hseq⟩

/-! ### A running sequencer -/

variable {m : Macro} {phase : Phase} {r j : Nat}

/-- What the invariant says of a command in progress (45_orchestrator.md R158 to R160). -/
theorem seqOk_running (hs : s.seq = .running m phase r j) :
    s.seqOk = true ↔ 0 < s.LEN ∧ 0 < s.KLEN ∧ m.allows phase r = true ∧
      (phase = .move ∨ phase = .rmove → j < nmc s.K) := by
  simp only [State.seqOk, hs]
  cases phase <;> simp [and_assoc]

theorem running_bounds (hi : s.Inv) (hs : s.seq = .running m phase r j) :
    0 < s.LEN ∧ 0 < s.KLEN ∧ m.allows phase r = true ∧
      (phase = .move ∨ phase = .rmove → j < nmc s.K) := by
  obtain ⟨_, _, hseq⟩ := hi
  exact (seqOk_running hs).1 hseq

/-- Once the State and the key are loaded, a command may be in any phase its sequence has, with a code
index below `NMC`. -/
theorem inv_running (hi : s.Inv) (hL : 0 < s.LEN) (hK : 0 < s.KLEN)
    (ha : m.allows phase r = true) (hj : j < nmc s.K) :
    (s.withSeq (.running m phase r j)).Inv := by
  obtain ⟨hcap, hmem, _⟩ := hi
  exact ⟨hcap, hmem, (seqOk_running rfl).2 ⟨hL, hK, ha, fun _ => hj⟩⟩

theorem nmc_pos (hK : 0 < s.KLEN) : 0 < nmc s.K := Nat.mul_pos two_pos hK

/-- A command in progress may move to any phase its sequence has, with a code index below `NMC`. -/
theorem inv_goesOn (hi : s.Inv) (hs : s.seq = .running m phase r j) {phase' : Phase} {r' j' : Nat}
    (ha : m.allows phase r = true → m.allows phase' r' = true)
    (hj : 0 < nmc s.K → j' < nmc s.K) : (s.withSeq (.running m phase' r' j')).Inv := by
  obtain ⟨hL, hK, ha₀, _⟩ := running_bounds hi hs
  exact inv_running hi hL hK (ha ha₀) (hj (nmc_pos hK))

theorem inv_afterMove (hi : s.Inv) (hs : s.seq = .running m .move r j) :
    (afterMove s m r j).Inv := by
  unfold afterMove
  split
  · next hj => exact inv_goesOn hi hs id fun _ => hj
  · exact inv_goesOn hi hs (by cases m <;> exact id) id

theorem inv_afterRot (hi : s.Inv) (hs : s.seq = .running m .rot r j) : (afterRot s m).Inv := by
  cases m with
  | enc rounds =>
    unfold afterRot
    dsimp only
    split
    · next hpos => exact inv_goesOn hi hs (by simp [Macro.allows, hpos]) id
    · exact inv_respond hi 0
  | rndf | rndr | dec => exact inv_respond hi 0

theorem inv_afterMix (hi : s.Inv) (hs : s.seq = .running m .mix r j) : (afterMix s m r).Inv := by
  cases m with
  | enc rounds =>
    unfold afterMix
    dsimp only
    split
    · next hr => exact inv_goesOn hi hs (by simp [Macro.allows, hr]) id
    · exact inv_respond hi 0
  | rndf | rndr | dec => exact inv_respond hi 0

theorem inv_afterRmove (hi : s.Inv) (hs : s.seq = .running m .rmove r j) :
    (afterRmove s m r j).Inv := by
  obtain ⟨_, _, _, hbound⟩ := running_bounds hi hs
  have hj : j < nmc s.K := hbound (.inr rfl)
  unfold afterRmove
  split
  · exact inv_goesOn hi hs id fun _ => by omega
  · cases m with
    | dec rounds =>
      dsimp only
      split
      · exact inv_goesOn hi hs (by simp [Macro.allows]) id
      · exact inv_goesOn hi hs (by simp [Macro.allows]; omega) id
    | rndf | rndr | enc => exact inv_respond hi 0

/-! ### Every instruction keeps the invariant -/

theorem inv_execMoveCode (hi : s.Inv) {c : Code} (h : execMoveCode c s = .next t) : t.Inv := by
  obtain ⟨_, rfl⟩ | ⟨_, m, r, j, hs, rfl⟩ | ⟨_, m, r, j, hs, rfl⟩ := execMoveCode_cases h
  · exact inv_faultsWith hi _
  · exact inv_afterMove (inv_withS hi (applyMove_length ..)) hs
  · exact inv_afterRmove (inv_withS hi (reverseMove_length ..)) hs

theorem ExecEffect.inv (h : ExecEffect s i t) (hi : s.Inv) : t.Inv := by
  have ⟨hcap, hmem, _⟩ := hi
  cases h with
  | answers => exact ⟨hcap, hmem, rfl⟩
  | transforms S _ _ hS => exact ⟨hcap, Memory.wf_withS hmem (hS ▸ hmem.1), rfl⟩
  | clearsS => exact ⟨hcap, Memory.wf_clearS hmem, rfl⟩
  | pushesS v _ _ hroom => exact ⟨hcap, Memory.wf_appendS hmem hroom v, rfl⟩
  | clearsK => exact ⟨hcap, Memory.wf_clearK hmem, rfl⟩
  | pushesK v _ _ hroom => exact ⟨hcap, Memory.wf_appendK hmem hroom v, rfl⟩
  | moveCode _ _ h => exact inv_execMoveCode hi h

theorem inv_exec (hi : s.Inv) (i : Instr) : EveryNext State.Inv (exec i s) :=
  fun t h => (exec_effect i s t h).inv hi

/-! ### Every micro-operation keeps the invariant -/

theorem inv_microRot (hi : s.Inv) (hs : s.seq = .running m .rot r j) :
    EveryNext State.Inv (microRot s m) :=
  everyNext_needState (inv_faultsWith hi _) fun _ =>
    everyNext_next.2 (inv_afterRot (inv_withS hi (rotateState_length ..)) hs)

theorem inv_microDiff (hi : s.Inv) (hs : s.seq = .running m phase r j) {phase' : Phase} {j' : Nat}
    (ha : m.allows phase r = true → m.allows phase' r = true)
    (hj : 0 < nmc s.K → j' < nmc s.K) :
    EveryNext State.Inv (microDiff s r (.running m phase' r j')) := by
  have hS : (diffuse s.S (roundKey s.K r s.S.length)).length = s.S.length := by simp
  exact everyNext_needKey (inv_faultsWith hi _) fun _ =>
    everyNext_next.2 (inv_goesOn (inv_withS hi hS) hs ha hj)

theorem inv_microUnrot (hi : s.Inv) : EveryNext State.Inv (microUnrot s) :=
  everyNext_needState (inv_faultsWith hi _) fun _ =>
    everyNext_next.2 (inv_respond (inv_withS hi (unrotateState_length ..)) 0)

theorem inv_microStep (hi : s.Inv) : EveryNext State.Inv (microStep s) := by
  unfold microStep
  split
  · exact everyNext_next.2 hi
  · next m phase r j hs =>
    cases phase with
    | rot => exact inv_microRot hi hs
    | move | rmove =>
      dsimp only
      split
      · exact inv_exec hi _
      · exact everyNext_fault _
    | diff => exact inv_microDiff hi hs (by cases m <;> exact id) id
    | mix => exact everyNext_next.2 (inv_afterMix (inv_withS hi (mix_length _)) hs)
    | rmix =>
      exact everyNext_next.2
        (inv_goesOn (inv_withS hi (reverseMix_length _)) hs (by cases m <;> exact id) id)
    | rdiff => exact inv_microDiff hi hs (by cases m <;> exact id) fun _ => by omega
    | unrot => exact inv_microUnrot hi

/-! ### Every command word and every step keeps the invariant -/

theorem inv_runCommand (hi : s.Inv) (cw : CmdWord) : EveryNext State.Inv (runCommand cw s) := by
  unfold runCommand
  split
  · exact inv_exec hi _
  · exact everyNext_next.2 (inv_faultsWith hi _)

/-- RNDF, RNDR, ENC and DEC start in a phase and a round of their own sequence. -/
theorem firstMicroOp_allowed {q : Sequencer} (h : firstMicroOp i = some q) :
    ∃ m phase r, q = .running m phase r 0 ∧ m.allows phase r = true := by
  cases i with
  | rndf round | rndr round | enc round =>
    have := round.isLt
    cases h
    exact ⟨_, _, _, rfl, by simp [Macro.allows]; omega⟩
  | dec rounds =>
    have := rounds.isLt
    unfold firstMicroOp at h
    dsimp only at h
    split at h <;> cases h
    · exact ⟨_, _, _, rfl, rfl⟩
    · exact ⟨_, _, _, rfl, by simp [Macro.allows]; omega⟩
  | _ => cases h

theorem inv_startCommand (hi : s.Inv) (cw : CmdWord) : EveryNext State.Inv (startCommand cw s) := by
  obtain ⟨_, _, h⟩ | ⟨i, q, _, hq, h⟩ | ⟨i, _, _, h⟩ := startCommand_eq cw s <;> rw [h]
  · exact everyNext_next.2 (inv_faultsWith hi _)
  · obtain ⟨m, phase, r, rfl, ha⟩ := firstMicroOp_allowed hq
    exact everyNext_needBoth (inv_faultsWith hi) fun hL hK =>
      everyNext_next.2 (inv_running hi hL hK ha (nmc_pos hK))
  · exact inv_exec hi i

theorem inv_step (hi : s.Inv) : EveryNext State.Inv (step s) := by
  obtain ⟨_, h⟩ | ⟨rest, _, h⟩ | ⟨rest, _, h⟩ | ⟨cw, rest, _, _, h⟩ | ⟨cw, rest, _, _, h⟩ |
    ⟨_, _, _, _, h⟩ := step_cases s <;> rw [h]
  · exact inv_microStep hi
  · exact everyNext_next.2 (inv_resetEvent (inv_withPort hi rest))
  · exact inv_microStep (inv_withPort hi rest)
  · exact inv_runCommand (inv_withPort hi rest) cw
  · exact inv_startCommand (inv_withPort hi rest) cw
  · exact inv_microStep hi

/-- Settles O54: the Reset event, a command and a micro-operation each keep the invariant. -/
theorem stepKeepsInvariant : Obligations.StepKeepsInvariant := fun _ t hi h => inv_step hi t h

end Sys2Proof.Machine
end

section
/-! What the next step does in a move phase (45_orchestrator.md R158, R159). -/

namespace Sys2Proof.Machine

variable {s : State}

/-! ### A step at a port with no command word and no Reset -/

theorem step_of_port_nil (hp : s.port = []) : step s = microStep s := by
  simp only [step, portStep, hp]

theorem step_of_port_quiet {rest : List PortEvent} (hp : s.port = .quiet :: rest) :
    step s = microStep (s.withPort rest) := by
  simp only [step, portStep, hp]

/-! ### The fetch -/

/-- In a move phase the micro-operation is the MoveCode `MC[j]` of the current key (20_memory.md R49). -/
theorem microStep_of_moveCode {m : Macro} {phase : Phase} {r j : Nat} {c : Code}
    (hs : s.seq = .running m phase r j) (hphase : phase = .move ∨ phase = .rmove)
    (hc : (moveCodes s.K)[j]? = some c) : microStep s = exec (decodeMoveCode c) s := by
  rcases hphase with rfl | rfl
  · simp only [microStep, hs, hc]
  · simp only [microStep, hs, hc]

/-- Settles O8: a quiet event leaves the sequencer and the key as they are, so the fetch finds the same
MoveCode with or without one. -/
theorem stepRunsFetchedMoveCode : Obligations.StepRunsFetchedMoveCode := by
  intro s m phase r j c hs hphase hc
  constructor
  · intro hp
    exact (step_of_port_nil hp).trans (microStep_of_moveCode hs hphase hc)
  · intro rest hp
    exact (step_of_port_quiet hp).trans (microStep_of_moveCode (s := s.withPort rest) hs hphase hc)

end Sys2Proof.Machine
end

section
/-! The decoder and the encoder undo each other, and the decoder accepts exactly the words of the opcode
table (30_encoding.md R60 to R68). -/

namespace Sys2Proof

variable {op : Byte} {a b : Half} {cw : CmdWord} {i : Instr}

/-! ### Decoding an encoded instruction -/

/-- Settles O1, by the operand form of each instruction: each form reads back the fields that the encoder
writes. -/
theorem decodeOfEncodeIsIdentity : Obligations.DecodeOfEncodeIsIdentity := by
  intro i
  cases i with
  | nop | clrs | clrk | getlen | getklen | geterr | clrerr | rots | urots | getshift | mix | rmix =>
    exact (decode_mk _ _ _).trans (noOperand_ok.2 ⟨rfl, rfl, rfl⟩)
  | pushs v | pushk v => exact (decode_mk _ _ _).trans (byteOperand_ok.2 ⟨rfl, v, rfl, rfl⟩)
  | rds | getmc | diff | rndf | rndr | enc | dec =>
    exact (decode_mk _ _ _).trans (firstOperand_ok.2 ⟨rfl, rfl⟩)
  | move _ code | rmove _ code => exact (decode_mk _ _ _).trans (codeOperand_ok.2 ⟨code, rfl, rfl⟩)
  | rotr | rotl | swap | getrk => exact (decode_mk _ _ _).trans (bothOperands_ok.2 rfl)
  | mc0 | mc1 | mc2 | mc3 | mc4 | mc5 | mc6 | mc7 | mc8 | mc9 | mc10 | mc11 | mc12 | mc13 | mc14
  | mc15 => rfl

/-! ### Encoding a decoded word -/

theorem opcode_eq_of_toNat {k : Nat} (h : op.toNat = k) : op = BitVec.ofNat 8 k := by
  rw [← h, BitVec.ofNat_toNat, BitVec.setWidth_eq]

/-- The opcode map of R62: each row's operand form accepts only what the encoder writes for it. -/
theorem encode_of_decodeFields (h : decodeFields op a b = .ok i) :
    encode i = .command (CmdWord.mk op a b) := by
  unfold decodeFields at h
  split at h <;> rename_i hop
  case h_28 => cases h
  all_goals obtain rfl := opcode_eq_of_toNat hop
  case h_1 | h_2 | h_5 | h_7 | h_8 | h_9 | h_10 | h_14 | h_15 | h_20 | h_22 | h_23 =>
    obtain ⟨rfl, rfl, rfl⟩ := noOperand_ok.1 h
    rfl
  case h_3 | h_6 =>
    obtain ⟨rfl, v, rfl, rfl⟩ := byteOperand_ok.1 h
    rfl
  case h_4 | h_18 | h_21 | h_24 | h_25 | h_26 | h_27 =>
    obtain ⟨rfl, rfl⟩ := firstOperand_ok.1 h
    rfl
  case h_11 | h_12 | h_13 | h_19 =>
    obtain rfl := bothOperands_ok.1 h
    rfl
  case h_16 | h_17 =>
    obtain ⟨c, rfl, rfl⟩ := codeOperand_ok.1 h
    rfl

theorem encode_of_decode (h : decode cw = .ok i) : encode i = .command cw := by
  rw [encode_of_decodeFields h, CmdWord.mk_fields]

theorem encode_decodeMoveCode (c : Code) : encode (decodeMoveCode c) = .moveCode c :=
  decodeMoveCode_cases (P := fun c i => encode i = .moveCode c) rfl rfl rfl rfl rfl rfl rfl rfl rfl
    rfl rfl rfl rfl rfl rfl rfl c

/-- Settles O2: a command word is its fields, and each row of the opcode map is encoded as it is
decoded. -/
theorem encodeOfDecodeIsIdentity : Obligations.EncodeOfDecodeIsIdentity :=
  ⟨fun _ _ => encode_of_decode, encode_decodeMoveCode⟩

/-! ### The words the decoder accepts -/

open Laws.EncodingRow in
/-- Every instruction's encoding is a row of the opcode table or its own MoveCode. -/
theorem encodingRow (i : Instr) : Statement i :=
  match i with
  | .nop => nop
  | .clrs => clrs
  | .pushs v => pushs v
  | .rds index => rds index
  | .clrk => clrk
  | .pushk v => pushk v
  | .getlen => getlen
  | .getklen => getklen
  | .geterr => geterr
  | .clrerr => clrerr
  | .rotr start stop => rotr start stop
  | .rotl start stop => rotl start stop
  | .swap pos1 pos2 => swap pos1 pos2
  | .rots => rots
  | .urots => urots
  | .move round code => move round code
  | .rmove round code => rmove round code
  | .getmc j => getmc j
  | .getrk r i => getrk r i
  | .getshift => getshift
  | .diff round => diff round
  | .mix => mix
  | .rmix => rmix
  | .rndf round => rndf round
  | .rndr round => rndr round
  | .enc rounds => enc rounds
  | .dec rounds => dec rounds
  | .mc0 => mc0
  | .mc1 => mc1
  | .mc2 => mc2
  | .mc3 => mc3
  | .mc4 => mc4
  | .mc5 => mc5
  | .mc6 => mc6
  | .mc7 => mc7
  | .mc8 => mc8
  | .mc9 => mc9
  | .mc10 => mc10
  | .mc11 => mc11
  | .mc12 => mc12
  | .mc13 => mc13
  | .mc14 => mc14
  | .mc15 => mc15

theorem wellFormed_of_encode (h : encode i = .command cw) : CmdWord.wellFormed cw = true := by
  have hrow := encodingRow i
  rwa [Laws.EncodingRow.Statement, h] at hrow

/-- Every word that fits the row is decoded. -/
def Row.Decodes (row : Row) : Prop := ∀ cw, row.fits cw = true → ∃ i, decode cw = .ok i

variable {name : String} {pattern mask : CmdWord}

/-- A row whose mask takes the opcode and the reserved bits `ra` and `rb`: what it leaves free is what the
decoder takes as operands. -/
theorem Row.decodes_of_fields {ra rb : Half} (hpattern : pattern = CmdWord.mk op 0 0)
    (hmask : mask = CmdWord.mk 0xFF ra rb)
    (h : ∀ a b, a &&& ra = 0 → b &&& rb = 0 → ∃ i, decodeFields op a b = .ok i) :
    (Row.mk name pattern mask).Decodes := by
  intro cw hfits
  have hcw : cw &&& mask = pattern := beq_iff_eq.1 hfits
  rw [hpattern, hmask, ← CmdWord.mk_fields cw, CmdWord.mk_and] at hcw
  obtain ⟨hop, ha, hb⟩ := CmdWord.mk_inj hcw
  have hop : CmdWord.op cw = op := (BitVec.and_allOnes (x := CmdWord.op cw)).symm.trans hop
  obtain ⟨i, hi⟩ := h _ _ ha hb
  exact ⟨i, by rw [decode, hop, hi]⟩

theorem eq_zero_of_and_allOnes (h : b &&& 0xFFFF = 0) : b = 0 :=
  (BitVec.and_allOnes (x := b)).symm.trans h

/-- The bits of a field that a mask takes are 0 when the masked field is. -/
theorem extractLsb'_eq_zero_of_and {b ra : Half} (n w : Nat)
    (hra : ra.extractLsb' n w = BitVec.allOnes w) (h : b &&& ra = 0) : b.extractLsb' n w = 0 := by
  have := congrArg (BitVec.extractLsb' n w) h
  simpa [BitVec.extractLsb'_and, hra] using this

theorem Row.decodes_plain (op : Byte) (hp : pattern = CmdWord.mk op 0 0)
    (h : ∀ a b, decodeFields op a b = noOperand i a b) :
    (Row.mk name pattern 0xFFFFFFFFFF).Decodes :=
  Row.decodes_of_fields hp (ra := 0xFFFF) (rb := 0xFFFF) (by decide) fun a b ha hb =>
    ⟨i, (h a b).trans
      (noOperand_ok.2 ⟨eq_zero_of_and_allOnes ha, eq_zero_of_and_allOnes hb, rfl⟩)⟩

theorem Row.decodes_byte (op : Byte) {f : Byte → Instr} (hp : pattern = CmdWord.mk op 0 0)
    (h : ∀ a b, decodeFields op a b = byteOperand f a b) :
    (Row.mk name pattern 0xFFFFFFFF00).Decodes :=
  Row.decodes_of_fields hp (ra := 0xFFFF) (rb := 0xFF00) (by decide) fun a b ha hb =>
    have hb : b.extractLsb' 8 8 = 0 := extractLsb'_eq_zero_of_and 8 8 (by decide) hb
    ⟨f (b.extractLsb' 0 8), (h a b).trans
      (byteOperand_ok.2 ⟨eq_zero_of_and_allOnes ha, _, (byte_of_field hb).symm, rfl⟩)⟩

theorem Row.decodes_first (op : Byte) {f : Half → Instr} (hp : pattern = CmdWord.mk op 0 0)
    (h : ∀ a b, decodeFields op a b = firstOperand f a b) :
    (Row.mk name pattern 0xFF0000FFFF).Decodes :=
  Row.decodes_of_fields hp (ra := 0) (rb := 0xFFFF) (by decide) fun a b _ hb =>
    ⟨f a, (h a b).trans (firstOperand_ok.2 ⟨eq_zero_of_and_allOnes hb, rfl⟩)⟩

theorem Row.decodes_code (op : Byte) {f : Half → Code → Instr} (hp : pattern = CmdWord.mk op 0 0)
    (h : ∀ a b, decodeFields op a b = codeOperand f a b) :
    (Row.mk name pattern 0xFF0000FFF0).Decodes :=
  Row.decodes_of_fields hp (ra := 0) (rb := 0xFFF0) (by decide) fun a b _ hb =>
    have hb : b.extractLsb' 4 12 = 0 := extractLsb'_eq_zero_of_and 4 12 (by decide) hb
    ⟨f a (b.extractLsb' 0 4), (h a b).trans (codeOperand_ok.2 ⟨_, (code_of_field hb).symm, rfl⟩)⟩

theorem Row.decodes_both (op : Byte) {f : Half → Half → Instr} (hp : pattern = CmdWord.mk op 0 0)
    (h : ∀ a b, decodeFields op a b = bothOperands f a b) :
    (Row.mk name pattern 0xFF00000000).Decodes :=
  Row.decodes_of_fields hp (ra := 0) (rb := 0) (by decide) fun a b _ _ => ⟨f a b, h a b⟩

theorem Row.decodes_of_mem {row : Row} (h : row ∈ Row.commands) : row.Decodes := by
  revert row
  simp only [Row.commands, Row.buffersAndPermutation, Row.movesToOrchestrator, List.cons_append,
    List.nil_append, List.forall_mem_cons]
  exact ⟨Row.decodes_plain 0x00 rfl fun _ _ => rfl, Row.decodes_plain 0x01 rfl fun _ _ => rfl,
    Row.decodes_byte 0x02 rfl fun _ _ => rfl, Row.decodes_first 0x03 rfl fun _ _ => rfl,
    Row.decodes_plain 0x04 rfl fun _ _ => rfl, Row.decodes_byte 0x05 rfl fun _ _ => rfl,
    Row.decodes_plain 0x06 rfl fun _ _ => rfl, Row.decodes_plain 0x07 rfl fun _ _ => rfl,
    Row.decodes_plain 0x08 rfl fun _ _ => rfl, Row.decodes_plain 0x09 rfl fun _ _ => rfl,
    Row.decodes_both 0x10 rfl fun _ _ => rfl, Row.decodes_both 0x11 rfl fun _ _ => rfl,
    Row.decodes_both 0x12 rfl fun _ _ => rfl, Row.decodes_plain 0x13 rfl fun _ _ => rfl,
    Row.decodes_plain 0x14 rfl fun _ _ => rfl, Row.decodes_code 0x20 rfl fun _ _ => rfl,
    Row.decodes_code 0x21 rfl fun _ _ => rfl, Row.decodes_first 0x30 rfl fun _ _ => rfl,
    Row.decodes_both 0x31 rfl fun _ _ => rfl, Row.decodes_plain 0x32 rfl fun _ _ => rfl,
    Row.decodes_first 0x40 rfl fun _ _ => rfl, Row.decodes_plain 0x41 rfl fun _ _ => rfl,
    Row.decodes_plain 0x42 rfl fun _ _ => rfl, Row.decodes_first 0x50 rfl fun _ _ => rfl,
    Row.decodes_first 0x51 rfl fun _ _ => rfl, Row.decodes_first 0x52 rfl fun _ _ => rfl,
    Row.decodes_first 0x53 rfl fun _ _ => rfl, List.forall_mem_nil _⟩

theorem decode_ok_iff_wellFormed (cw : CmdWord) :
    (∃ i, decode cw = .ok i) ↔ CmdWord.wellFormed cw = true := by
  constructor
  · rintro ⟨i, hi⟩
    exact wellFormed_of_encode (encode_of_decode hi)
  · intro h
    obtain ⟨row, hrow, hfits⟩ := List.any_eq_true.1 h
    exact Row.decodes_of_mem hrow cw hfits

/-- Settles O3: a decoded word is the word of its instruction, which fits the instruction's row, and the
words of each row are decoded. -/
theorem decoderAcceptsExactlyTableWords : Obligations.DecoderAcceptsExactlyTableWords :=
  decode_ok_iff_wellFormed

theorem decode_error_of_not_wellFormed (h : CmdWord.wellFormed cw = false) :
    ∃ e, decode cw = .error e := by
  cases hd : decode cw with
  | error e => exact ⟨e, rfl⟩
  | ok i => simp [(decode_ok_iff_wellFormed cw).1 ⟨i, hd⟩] at h

/-! ### Words written out in the spec -/

/-- Settles O4, by computation: the words are closed. -/
theorem writtenWordsDecode : Obligations.WrittenWordsDecode :=
  ⟨rfl, rfl, rfl, rfl, rfl, rfl, rfl, rfl, rfl, rfl, rfl, rfl, rfl, rfl, rfl⟩

end Sys2Proof
end

section
/-! What a command word at the port of an idle engine does, and where an instruction is placed for the
next step (20_memory.md R47, 40_buffer_access.md R80). -/

namespace Sys2Proof.Machine

variable {s : State} {cw : CmdWord} {i : Instr}

/-! ### A step at a port whose next event is a command word -/

theorem step_of_port_command {rest : List PortEvent} (hs : s.seq = .idle)
    (hp : s.port = .command cw :: rest) : step s = runCommand cw (s.withPort rest) := by
  simp only [step, portStep, hp, if_pos hs]

theorem runCommand_of_decode (h : decode cw = .ok i) : runCommand cw s = exec i s := by
  simp only [runCommand, h]

/-- A word outside the opcode table raises `ERR_ILLEGAL` (30_encoding.md R64, R65). -/
theorem runCommand_of_not_wellFormed (h : CmdWord.wellFormed cw = false) :
    runCommand cw s = .next (s.faultsWith .illegal) := by
  obtain ⟨e, he⟩ := decode_error_of_not_wellFormed h
  simp only [runCommand, he, trap_eq]

/-- Settles O10: the decoder rejects the word, so the step is the trap of `runCommand`. -/
theorem illegalWordChangesOnlyErr : Obligations.IllegalWordChangesOnlyErr := by
  intro s cw rest hs hp hw
  exact (step_of_port_command hs hp).trans (runCommand_of_not_wellFormed hw)

/-! ### The placed instruction (log entry 8) -/

theorem highNibble_append (c x : Code) : highNibble (c ++ x) = c := by
  revert c x; decide

/-- The placed MoveCode is the first that the key gives. -/
theorem moveCodes_keyWithFirstCode (K : List Byte) (c : Code) :
    (moveCodes (keyWithFirstCode K c))[0]? = some c := by
  cases K <;> simp [keyWithFirstCode, highNibble_append]

theorem nonemptyState_length_pos (S : List Byte) : 0 < (nonemptyState S).length := by
  cases S <;> simp [nonemptyState]

theorem nonemptyState_of_ne_nil {S : List Byte} (h : S ≠ []) : nonemptyState S = S := by
  cases S with
  | nil => exact absurd rfl h
  | cons => rfl

theorem step_placeCommand (h : decode cw = .ok i) : step (placeCommand s cw) = exec i (s.withSeq .idle) :=
  (step_of_port_command rfl rfl).trans (runCommand_of_decode h)

theorem step_placeMoveCode (s : State) (c : Code) :
    step (placeMoveCode s c) = exec (decodeMoveCode c)
      (((s.withK (keyWithFirstCode s.K c)).withS (nonemptyState s.S)).withSeq
        (.running .rndf .move 0 0)) :=
  (step_of_port_quiet rfl).trans
    (microStep_of_moveCode rfl (.inl rfl) (moveCodes_keyWithFirstCode s.K c))

theorem decode_of_decodeTableWord {w : Nat} (h : decodeTableWord 40 w = some i) :
    decode (BitVec.ofNat 40 w) = .ok i := by
  rw [decodeTableWord, if_neg (by decide)] at h
  split at h
  · cases hd : decode (BitVec.ofNat 40 w) with
    | ok i' => simpa [hd, Except.toOption] using h
    | error e => simp [hd, Except.toOption] at h
  · cases h

theorem decodeMoveCode_of_decodeTableWord {w : Nat} (h : decodeTableWord 8 w = some i) :
    decodeMoveCode (BitVec.ofNat 4 w) = i := by
  rw [decodeTableWord, if_pos le_rfl] at h
  split at h
  · exact Option.some.inj h
  · cases h

/-- Settles O9: a placed command word is next at the port of an idle engine, and a placed MoveCode is the
one that the forward move phase fetches from the key. -/
theorem placedWordIsNextInstruction : Obligations.PlacedWordIsNextInstruction := by
  constructor
  · intro s w i h
    exact step_placeCommand (decode_of_decodeTableWord h)
  · intro s w i h
    obtain rfl := decodeMoveCode_of_decodeTableWord h
    exact ⟨nonemptyState s.S, _, nonemptyState_length_pos s.S, nonemptyState_of_ne_nil,
      step_placeMoveCode s _⟩

end Sys2Proof.Machine
end

section
/-! The MoveCodes: their table (30_encoding.md R66, R68) and where they stop (R69). -/

namespace Sys2Proof.Machine

/-! ### The columns of the table, over the code's value -/

theorem codeB0_iff (c : Code) : codeB0 c = true ↔ 8 ≤ c.toNat := by
  revert c; decide

theorem codeB3_iff (c : Code) : codeB3 c = true ↔ c.toNat % 2 = 1 := by
  revert c; decide

theorem forwardClockwise_iff (c : Code) :
    forwardClockwise c = true ↔ c.toNat ∈ [2, 3, 4, 5, 10, 11, 12, 13] := by
  revert c; decide

theorem reverseClockwise_eq_not (c : Code) : reverseClockwise c = !forwardClockwise c :=
  Bool.not_xor _ _

theorem move_range_eq (c : Code) (n : Nat) :
    (moveLo c n, moveHi c n) = if 8 ≤ c.toNat then (0, n / 2) else (n / 2, n) := by
  by_cases h : codeB0 c = true
  · rw [moveLo, moveHi, if_pos h, if_pos h, if_pos ((codeB0_iff c).1 h), half]
  · rw [moveLo, moveHi, if_neg h, if_neg h, if_neg (mt (codeB0_iff c).2 h), half]

/-- Settles O5, column by column. -/
theorem moveCodeTable : Obligations.MoveCodeTable := fun c n =>
  ⟨move_range_eq c n, forwardClockwise_iff c, reverseClockwise_eq_not c, codeB3_iff c⟩

/-! ### A MoveCode outside a move phase, and on an empty State (log entries 6, 7) -/

variable {s : State} {m : Macro} {phase : Phase} {r j : Nat}

theorem execMoveCode_idle (c : Code) (hs : s.seq = .idle) :
    execMoveCode c s = .fault .noMoveInProgress := by
  simp only [execMoveCode, hs]

theorem execMoveCode_other_phase (c : Code) (hs : s.seq = .running m phase r j)
    (hm : phase ≠ .move) (hr : phase ≠ .rmove) : execMoveCode c s = .fault .noMoveInProgress := by
  cases phase with
  | move => exact absurd rfl hm
  | rmove => exact absurd rfl hr
  | rot | diff | mix | rmix | rdiff | unrot => simp only [execMoveCode, hs]

theorem execMoveCode_empty (c : Code) (hs : s.seq = .running m phase r j)
    (hphase : phase = .move ∨ phase = .rmove) (h0 : s.LEN = 0) :
    execMoveCode c s = .next (s.faultsWith .emptyState) := by
  rcases hphase with rfl | rfl <;> simp only [execMoveCode, hs, needState_zero h0]

/-- Settles O33: each MoveCode instruction is the shared move, which looks at the phase and then at the
length of the State. -/
theorem moveCodeStopsOutsideMovePhase : Obligations.MoveCodeStopsOutsideMovePhase := by
  intro s c
  rw [exec_decodeMoveCode]
  exact ⟨execMoveCode_idle c, fun _ _ _ _ => execMoveCode_other_phase c,
    fun _ _ _ _ => execMoveCode_empty c⟩

end Sys2Proof.Machine
end

section
/-! How a command of the port ends: with data, or with a fault, and always in one response word
(30_encoding.md R61, 60_exceptions.md R184, R189). -/

namespace Sys2Proof.Machine

variable {s : State} {o : Result}

/-- The two ways a command that starts from `s` ends. -/
inductive CommandEnds (s : State) : Result → Prop
  /-- The command completes with response data; it may have written the buffers or cleared `ERR`. -/
  | completes (S K : List Byte) (e : ErrCode) (d : Half) :
      CommandEnds s (.next (s.endsWith S K e { err := .ok, data := d }))
  /-- The command raises an exception. -/
  | faults (e : ErrCode) : CommandEnds s (.next (s.faultsWith e))

/-! ### The checks -/

theorem commandEnds_ite {p : Prop} [Decidable p] {o' : Result} (h : CommandEnds s o)
    (h' : CommandEnds s o') : CommandEnds s (if p then o else o') := by
  split
  · exact h
  · exact h'

theorem commandEnds_needState (h : CommandEnds s o) : CommandEnds s (needState s o) :=
  commandEnds_ite (.faults _) h

theorem commandEnds_needKey (h : CommandEnds s o) : CommandEnds s (needKey s o) :=
  commandEnds_ite (.faults _) h

theorem commandEnds_needBoth (h : CommandEnds s o) : CommandEnds s (needBoth s o) :=
  commandEnds_needState (commandEnds_needKey h)

theorem commandEnds_execRds (index : Half) (s : State) : CommandEnds s (execRds index s) := by
  unfold execRds
  split
  · exact .completes _ _ _ _
  · exact .faults _

theorem commandEnds_execGetmc (j : Half) (s : State) : CommandEnds s (execGetmc j s) := by
  unfold execGetmc
  split
  · exact .completes _ _ _ _
  · exact .faults _

/-! ### Every command -/

theorem commandEnds_exec {i : Instr} (hi : isCommand i = true) (s : State) :
    CommandEnds s (exec i s) := by
  cases i with
  | nop | clrs | clrk | getlen | getklen | geterr | clrerr | rotr | rotl | mix | rmix =>
    exact .completes _ _ _ _
  | pushs | pushk => exact commandEnds_ite (.faults _) (.completes _ _ _ _)
  | rds index => exact commandEnds_execRds index s
  | getmc j => exact commandEnds_execGetmc j s
  | getrk => exact commandEnds_needKey (commandEnds_ite (.faults _) (.completes _ _ _ _))
  | getshift | swap | rots | urots | move | rmove =>
    exact commandEnds_needState (.completes _ _ _ _)
  | diff => exact commandEnds_needKey (.completes _ _ _ _)
  | rndf | rndr | enc | dec => exact commandEnds_needBoth (.completes _ _ _ _)
  | mc0 | mc1 | mc2 | mc3 | mc4 | mc5 | mc6 | mc7 | mc8 | mc9 | mc10 | mc11 | mc12 | mc13 | mc14
  | mc15 => cases hi

/-! ### The response word -/

theorem Response.word_err (r : Response) : r.word.extractLsb' 16 8 = r.err.code :=
  BitVec.extractLsb'_append_eq_left

theorem Response.word_data (r : Response) : r.word.extractLsb' 0 16 = r.data :=
  BitVec.extractLsb'_append_eq_right

theorem ErrCode.code_eq_zero_iff (e : ErrCode) : e.code = 0 ↔ e = .ok := by
  cases e <;> decide

theorem CommandEnds.answers_once (h : CommandEnds s o) :
    ∃ t r, o = .next t ∧ t.out = s.out ++ [r] ∧ (r.err ≠ .ok → r.data = 0) := by
  cases h with
  | completes => exact ⟨_, _, rfl, rfl, fun h => absurd rfl h⟩
  | faults => exact ⟨_, _, rfl, rfl, fun _ => rfl⟩

/-- Settles O48: both ways a command ends append one response, whose word is its code and its data. -/
theorem everyCommandAnswersOnce : Obligations.EveryCommandAnswersOnce := by
  intro i s hi
  obtain ⟨t, r, ht, hout, hdata⟩ := (commandEnds_exec hi s).answers_once
  exact ⟨t, r, ht, hout, r.word_err, r.word_data, r.err.code_eq_zero_iff, hdata⟩

end Sys2Proof.Machine
end

section
/-! The assembler reads back the line that `asmText` writes (30_encoding.md R70, log entry 20). -/

namespace Sys2Proof.Machine

/-! ### Digits and numbers -/

theorem hexValue_hexDigit (c : Code) : hexValue (hexDigit c) = some c := by
  revert c; decide

/-- A hex digit is none of the characters that shape a line. -/
theorem hexDigit_plain (c : Code) :
    hexDigit c ≠ ',' ∧ hexDigit c ≠ ';' ∧ isBlank (hexDigit c) = false := by
  revert c; decide

/-- The digits `asmText` writes for an operand: `hexOperand` without its blank. -/
def hexText (v : Half) : List Char :=
  ['0', 'x'] ++ bytesToHex [v.extractLsb' 8 8, v.extractLsb' 0 8]

theorem hexOperand_eq (v : Half) : hexOperand v = ' ' :: hexText v := rfl

theorem readDigits_nil (base acc : Nat) : readDigits base acc [] = some acc := rfl

theorem readDigits_hexDigit (acc : Nat) (c : Code) (cs : List Char) :
    readDigits 16 acc (hexDigit c :: cs) = readDigits 16 (acc * 16 + c.toNat) cs := by
  have hc : c.toNat < 16 := c.isLt
  simp only [readDigits, hexValue_hexDigit, if_pos hc]

theorem byte_nibbles (v : Byte) : (highNibble v).toNat * 16 + (lowNibble v).toNat = v.toNat := by
  revert v; decide

/-- The two digits of a byte, most significant first. -/
theorem readDigits_byte (acc : Nat) (v : Byte) (cs : List Char) :
    readDigits 16 acc (hexDigit (highNibble v) :: hexDigit (lowNibble v) :: cs) =
      readDigits 16 (acc * 256 + v.toNat) cs := by
  rw [readDigits_hexDigit, readDigits_hexDigit, ← byte_nibbles v]
  congr 1
  omega

theorem half_bytes (v : Half) :
    (v.extractLsb' 8 8).toNat * 256 + (v.extractLsb' 0 8).toNat = v.toNat := by
  have := v.isLt
  simp only [BitVec.extractLsb'_toNat, Nat.shiftRight_eq_div_pow]
  omega

@[simp] theorem readNumber_hexText (v : Half) : readNumber (hexText v) = some v.toNat := by
  calc readNumber (hexText v)
      = readDigits 16 0 (bytesToHex [v.extractLsb' 8 8, v.extractLsb' 0 8]) := rfl
    _ = some v.toNat := by
      simp only [bytesToHex, List.flatMap_cons, List.flatMap_nil, List.cons_append, List.nil_append,
        readDigits_byte, readDigits_nil, Nat.zero_mul, Nat.zero_add, half_bytes]

@[simp] theorem readCode_hexText (v : Half) : readCode (hexText v) = some v.toNat := by
  rw [← readNumber_hexText]
  rfl

/-- A number that comes from a field of `w` bits, zero-extended, fits it. -/
theorem fitField_append (k : Nat) {w : Nat} (v : BitVec w) :
    fitField w (some (0#k ++ v).toNat) = some v := by
  simp [fitField, v.isLt]

@[simp] theorem fitField_toNat {w : Nat} (v : BitVec w) : fitField w (some v.toNat) = some v := by
  simp [fitField, v.isLt]

/-! ### The operand forms -/

theorem asmByte_hexText (f : Byte → Instr) (v : Byte) :
    asmByte f [hexText (0#8 ++ v)] = some (f v) := by
  simp only [asmByte, readNumber_hexText, fitField_append, Option.map_some]

theorem asmFirst_hexText (f : Half → Instr) (a : Half) : asmFirst f [hexText a] = some (f a) := by
  simp only [asmFirst, readNumber_hexText, fitField_toNat, Option.map_some]

theorem asmCode_hexText (f : Half → Code → Instr) (a : Half) (c : Code) :
    asmCode f [hexText a, hexText (0#12 ++ c)] = some (f a c) := by
  simp only [asmCode, readNumber_hexText, readCode_hexText, fitField_toNat, fitField_append,
    Option.bind_some, Option.map_some]

theorem asmBoth_hexText (f : Half → Half → Instr) (a b : Half) :
    asmBoth f [hexText a, hexText b] = some (f a b) := by
  simp only [asmBoth, readNumber_hexText, fitField_toNat, Option.bind_some, Option.map_some]

/-! ### Characters that shape a line -/

/-- Text without commas, semicolons and blanks: a mnemonic or the digits of an operand. -/
structure PlainText (cs : List Char) : Prop where
  noComma : ',' ∉ cs
  noComment : ';' ∉ cs
  noBlank : ∀ d ∈ cs, isBlank d = false

theorem plainText_of_forall {cs : List Char}
    (h : ∀ d ∈ cs, d ≠ ',' ∧ d ≠ ';' ∧ isBlank d = false) : PlainText cs where
  noComma := fun hd => (h _ hd).1 rfl
  noComment := fun hd => (h _ hd).2.1 rfl
  noBlank := fun d hd => (h d hd).2.2

theorem plainText_hexText (v : Half) : PlainText (hexText v) := by
  refine plainText_of_forall fun d h => ?_
  simp only [hexText, bytesToHex, List.flatMap_cons, List.flatMap_nil, List.cons_append,
    List.nil_append, List.mem_cons, List.not_mem_nil, or_false] at h
  obtain rfl | rfl | rfl | rfl | rfl | rfl := h
  · decide
  · decide
  all_goals exact hexDigit_plain _

/-- Text that neither begins nor ends with a blank is its own trim. -/
theorem trimBlanks_eq_self {cs : List Char} (hhead : ∀ c ∈ cs.head?, isBlank c = false)
    (hlast : ∀ c ∈ cs.getLast?, isBlank c = false) : trimBlanks cs = cs := by
  have dropWhile_eq {ds : List Char} (h : ∀ c ∈ ds.head?, isBlank c = false) :
      ds.dropWhile isBlank = ds := by
    cases ds with
    | nil => rfl
    | cons d ds => exact List.dropWhile_cons_of_neg (by simp [h d rfl])
  rw [trimBlanks, dropWhile_eq hhead, dropWhile_eq (by rwa [List.head?_reverse]),
    List.reverse_reverse]

theorem PlainText.trimBlanks_eq {cs : List Char} (h : PlainText cs) : trimBlanks cs = cs :=
  trimBlanks_eq_self (fun c hc => h.noBlank c (List.mem_of_head? hc))
    fun c hc => h.noBlank c (List.mem_of_getLast? hc)

theorem trimBlanks_blank (cs : List Char) : trimBlanks (' ' :: cs) = trimBlanks cs := rfl

theorem trimBlanks_hexOperand (v : Half) : trimBlanks (hexOperand v) = hexText v := by
  rw [hexOperand_eq, trimBlanks_blank, (plainText_hexText v).trimBlanks_eq]

theorem comma_not_mem_hexOperand (v : Half) : ',' ∉ hexOperand v :=
  List.not_mem_cons_of_ne_of_not_mem (by decide) (plainText_hexText v).noComma

theorem splitCommas_of_not_mem {cs : List Char} (h : ',' ∉ cs) : splitCommas cs = [cs] := by
  induction cs with
  | nil => rfl
  | cons c cs ih =>
    obtain ⟨hc, hcs⟩ := List.ne_and_not_mem_of_not_mem_cons h
    simp only [splitCommas, ih hcs, if_neg hc.symm]

theorem splitCommas_ne_nil (cs : List Char) : splitCommas cs ≠ [] := by
  cases cs with
  | nil => exact nofun
  | cons c cs =>
    unfold splitCommas
    split
    · exact nofun
    · split <;> exact nofun

theorem splitCommas_comma (cs : List Char) : splitCommas (',' :: cs) = [] :: splitCommas cs := by
  rw [splitCommas]
  split
  · next h => exact absurd h (splitCommas_ne_nil cs)
  · next h => rw [if_pos rfl, h]

theorem splitCommas_append_comma {cs : List Char} (h : ',' ∉ cs) (ds : List Char) :
    splitCommas (cs ++ ',' :: ds) = cs :: splitCommas ds := by
  induction cs with
  | nil => exact splitCommas_comma ds
  | cons c cs ih =>
    obtain ⟨hc, hcs⟩ := List.ne_and_not_mem_of_not_mem_cons h
    simp only [List.cons_append, splitCommas, ih hcs, if_neg hc.symm]

/-! ### The operands of a line -/

/-- What may follow a mnemonic: nothing, or text that a blank sets off. -/
structure OperandText (ops : List Char) : Prop where
  startsBlank : ∀ c ∈ ops.head?, isBlank c = true
  endsPlain : ∀ c ∈ ops.getLast?, isBlank c = false
  noComment : ';' ∉ ops

theorem hexOperand_endsPlain (cs : List Char) (v : Half) :
    ∀ c ∈ (cs ++ hexOperand v).getLast?, isBlank c = false := by
  simp [hexOperand, bytesToHex, hexDigit_plain]

theorem operandText_nil : OperandText [] := ⟨nofun, nofun, nofun⟩

theorem operandText_hexOperand (v : Half) : OperandText (hexOperand v) where
  startsBlank := by simp [hexOperand_eq, isBlank]
  endsPlain := hexOperand_endsPlain [] v
  noComment := List.not_mem_cons_of_ne_of_not_mem (by decide) (plainText_hexText v).noComment

theorem operandText_two (a b : Half) : OperandText (hexOperand a ++ [','] ++ hexOperand b) where
  startsBlank := by simp [hexOperand_eq, isBlank]
  endsPlain := hexOperand_endsPlain _ b
  noComment := by
    simp [(operandText_hexOperand a).noComment, (operandText_hexOperand b).noComment]

theorem splitOperands_hexOperand (v : Half) : splitOperands (hexOperand v) = [hexText v] := by
  rw [splitOperands, trimBlanks_hexOperand, if_neg nofun,
    splitCommas_of_not_mem (comma_not_mem_hexOperand v), List.map_singleton, trimBlanks_hexOperand]

theorem splitOperands_two (a b : Half) :
    splitOperands (hexOperand a ++ [','] ++ hexOperand b) = [hexText a, hexText b] := by
  have htrim := calc trimBlanks (hexOperand a ++ [','] ++ hexOperand b)
      _ = trimBlanks (hexText a ++ [','] ++ hexOperand b) := trimBlanks_blank _
      _ = hexText a ++ [','] ++ hexOperand b :=
        trimBlanks_eq_self (by simp [hexText, isBlank]) (hexOperand_endsPlain _ b)
  have hne : trimBlanks (hexOperand a ++ [','] ++ hexOperand b) ≠ [] := by
    rw [htrim]
    exact nofun
  rw [splitOperands, if_neg hne, List.append_assoc, List.singleton_append,
    splitCommas_append_comma (comma_not_mem_hexOperand a),
    splitCommas_of_not_mem (comma_not_mem_hexOperand b)]
  simp only [List.map_cons, List.map_nil, trimBlanks_hexOperand]

/-! ### A line -/

variable {name ops : List Char} {build : List (List Char) → Option Instr} {i : Instr}

theorem mnemonic_plain (h : (asmUnits01 ++ asmUnits25).lookup name = some build) :
    name ≠ [] ∧ PlainText name := by
  obtain ⟨l, l', hmem, _⟩ := List.lookup_eq_some_iff.1 h
  have hall : (asmUnits01 ++ asmUnits25).all (fun row => row.1 != [] &&
      row.1.all fun d => d != ',' && d != ';' && !isBlank d) = true := rfl
  have hrow := List.all_eq_true.1 hall (name, build) (by simp [hmem])
  simp only [Bool.and_eq_true, bne_iff_ne, List.all_eq_true, Bool.not_eq_true', and_assoc] at hrow
  obtain ⟨hne, hplain⟩ := hrow
  exact ⟨hne, plainText_of_forall hplain⟩

theorem takeWhile_plain (hplain : PlainText name) (hops : OperandText ops) :
    (name ++ ops).takeWhile (fun c => !isBlank c) = name := by
  have hnil : ops.takeWhile (fun c => !isBlank c) = [] := by
    cases ops with
    | nil => rfl
    | cons c ops => exact List.takeWhile_cons_of_neg (by simp [hops.startsBlank c rfl])
  rw [List.takeWhile_append_of_pos fun d hd => by simp [hplain.noBlank d hd], hnil, List.append_nil]

theorem takeWhile_no_comment (hplain : PlainText name) (hops : OperandText ops) :
    (name ++ ops).takeWhile (fun c => c != ';') = name ++ ops := by
  refine List.takeWhile_eq_self_iff.2 fun d hd => bne_iff_ne.2 ?_
  rcases List.mem_append.1 hd with hd | hd
  · exact ne_of_mem_of_not_mem hd hplain.noComment
  · exact ne_of_mem_of_not_mem hd hops.noComment

theorem trimBlanks_line (hne : name ≠ []) (hplain : PlainText name) (hops : OperandText ops) :
    trimBlanks (name ++ ops) = name ++ ops := by
  refine trimBlanks_eq_self (fun c hc => ?_) fun c hc => ?_
  · rw [List.head?_append_of_ne_nil _ hne] at hc
    exact hplain.noBlank c (List.mem_of_head? hc)
  · cases hlast : ops.getLast? with
    | none =>
      rw [List.getLast?_append, hlast, Option.none_or] at hc
      exact hplain.noBlank c (List.mem_of_getLast? hc)
    | some d =>
      rw [List.getLast?_append, hlast, Option.some_or] at hc
      exact hops.endsPlain c (hlast.trans hc)

/-- A mnemonic of the table, and operands that it takes. -/
theorem assembleInstr_append (hname : (asmUnits01 ++ asmUnits25).lookup name = some build)
    (hops : OperandText ops) (hbuild : build (splitOperands ops) = some i) :
    assembleInstr (name ++ ops) = .ok (some i) := by
  obtain ⟨hne, hplain⟩ := mnemonic_plain hname
  have hline : name ++ ops ≠ [] := by simp [hne]
  simp only [assembleInstr, takeWhile_no_comment hplain hops, trimBlanks_line hne hplain hops,
    takeWhile_plain hplain hops, if_neg hline, hname, List.drop_left, hbuild]

theorem assembleInstr_noOperand (hname : (asmUnits01 ++ asmUnits25).lookup name = some build)
    (hbuild : build [] = some i) : assembleInstr name = .ok (some i) := by
  simpa using assembleInstr_append hname operandText_nil hbuild

theorem assembleInstr_oneOperand {v : Half}
    (hname : (asmUnits01 ++ asmUnits25).lookup name = some build)
    (hbuild : build [hexText v] = some i) : assembleInstr (name ++ hexOperand v) = .ok (some i) :=
  assembleInstr_append hname (operandText_hexOperand v) (by rwa [splitOperands_hexOperand])

theorem assembleInstr_twoOperands {a b : Half}
    (hname : (asmUnits01 ++ asmUnits25).lookup name = some build)
    (hbuild : build [hexText a, hexText b] = some i) :
    assembleInstr (name ++ hexOperand a ++ [','] ++ hexOperand b) = .ok (some i) := by
  rw [List.append_assoc, List.append_assoc, ← List.append_assoc (hexOperand a)]
  exact assembleInstr_append hname (operandText_two a b) (by rwa [splitOperands_two])

/-- Every command's line is read back as the command. -/
theorem assembleInstr_asmText (hi : isCommand i = true) :
    assembleInstr (asmText i) = .ok (some i) := by
  cases i with
  | nop | clrs | clrk | getlen | getklen | geterr | clrerr | rots | urots | getshift | mix | rmix =>
    exact assembleInstr_noOperand rfl rfl
  | pushs v | pushk v => exact assembleInstr_oneOperand rfl (asmByte_hexText _ v)
  | rds a | getmc a | diff a | rndf a | rndr a | enc a | dec a =>
    exact assembleInstr_oneOperand rfl (asmFirst_hexText _ a)
  | move a c | rmove a c => exact assembleInstr_twoOperands rfl (asmCode_hexText _ a c)
  | rotr a b | rotl a b | swap a b | getrk a b =>
    exact assembleInstr_twoOperands rfl (asmBoth_hexText _ a b)
  | mc0 | mc1 | mc2 | mc3 | mc4 | mc5 | mc6 | mc7 | mc8 | mc9 | mc10 | mc11 | mc12 | mc13 | mc14
  | mc15 => cases hi

/-- Settles O6: the line is read back as its instruction, whose word is the one encoded. -/
theorem assemblerGivesCommandWord : Obligations.AssemblerGivesCommandWord := by
  intro i cw h
  have hi : isCommand i = true := by rw [isCommand, h]
  simp only [assembleLine, assembleInstr_asmText hi, wordOf, h]

end Sys2Proof.Machine
end

section
/-! The buffer access and system commands (40_buffer_access.md R80 to R90): the step that runs a presented
command, then each command with its encoding and its frame. -/

namespace Sys2Proof.Machine

variable {s : State}

/-! ### Appending one byte (R83, R86) -/

theorem execPushs_of_room (v : Byte) (h : s.LEN ≠ s.cap.nmax) :
    execPushs v s = .next (s.endsWith (s.S ++ [v]) s.K s.err { err := .ok, data := 0 }) :=
  if_neg h

theorem execPushs_of_full (v : Byte) (h : s.LEN = s.cap.nmax) :
    execPushs v s = .next (s.faultsWith .overflow) := if_pos h

theorem execPushk_of_room (v : Byte) (h : s.KLEN ≠ s.cap.kmax) :
    execPushk v s = .next (s.endsWith s.S (s.K ++ [v]) s.err { err := .ok, data := 0 }) :=
  if_neg h

theorem execPushk_of_full (v : Byte) (h : s.KLEN = s.cap.kmax) :
    execPushk v s = .next (s.faultsWith .overflow) := if_pos h

/-- Settles O17: with room the new buffer is the old one followed by the byte, whose index is the old
length; a full buffer traps. -/
theorem pushAppendsOneByte : Obligations.PushAppendsOneByte := by
  refine ⟨encodedByte_of_fields fun _ _ => rfl, encodedByte_of_fields fun _ _ => rfl, fun s v =>
    ⟨fun h => ?_, execPushs_of_full v, fun h => ?_, execPushk_of_full v⟩⟩
  · exact ⟨_, execPushs_of_room v h, List.length_append, List.getElem?_concat_length,
      fun _ => List.getElem?_append_left, rfl⟩
  · exact ⟨_, execPushk_of_room v h, List.length_append, List.getElem?_concat_length,
      fun _ => List.getElem?_append_left, rfl⟩

/-! ### The presented command (R80) -/

/-- Settles O7: the word is taken from the port of the idle engine and its instruction is executed. -/
theorem stepRunsPresentedCommand : Obligations.StepRunsPresentedCommand := by
  intro s cw rest i hs hp hd
  exact (step_of_port_command hs hp).trans (runCommand_of_decode hd)

/-! ### Commands that complete in every state (R81, R82, R85, R90) -/

/-- Settles O15: NOP is `complete` on the state as it is. -/
theorem nopWritesNothing : Obligations.NopWritesNothing :=
  ⟨encodedPlain_of_fields fun _ _ => rfl, fun s => complete_eq s 0⟩

/-- Settles O16: each command completes on the state with one buffer made empty. -/
theorem clearsEmptyOneBuffer : Obligations.ClearsEmptyOneBuffer :=
  ⟨encodedPlain_of_fields fun _ _ => rfl, encodedPlain_of_fields fun _ _ => rfl, fun s =>
    ⟨⟨_, complete_eq (s.withS []) 0, rfl, rfl⟩, ⟨_, complete_eq (s.withK []) 0, rfl, rfl⟩⟩⟩

/-- Settles O20: CLRERR completes on the state with `ERR` cleared, so the code 0 is what it leaves. -/
theorem clrerrClearsOnlyErr : Obligations.ClrerrClearsOnlyErr :=
  ⟨encodedPlain_of_fields fun _ _ => rfl, fun s => complete_eq (s.withErr .ok) 0⟩

/-! ### The data field of a response -/

/-- Zero-extension keeps the value of a byte. -/
@[simp] theorem zextByte_toNat (v : Byte) : (zextByte v).toNat = v.toNat :=
  BitVec.toNat_setWidth_of_le (by decide)

/-- A length below 65536 is whole in the data field. -/
theorem dataOfNat_toNat {n : Nat} (h : n < 65536) : (dataOfNat n).toNat = n :=
  (BitVec.toNat_ofNat n 16).trans (Nat.mod_eq_of_lt h)

/-- The invariant bounds `LEN` by `NMAX <= 65535` (10_state.md R21). -/
theorem State.Inv.LEN_lt (hi : s.Inv) : s.LEN < 65536 := by
  obtain ⟨⟨⟨_, hcap⟩, _⟩, ⟨hfit, _⟩, _⟩ := hi
  exact Nat.lt_succ_of_le (hfit.trans hcap)

/-- The invariant bounds `KLEN` by `KMAX <= 32767` (10_state.md R23). -/
theorem State.Inv.KLEN_lt (hi : s.Inv) : s.KLEN < 65536 := by
  obtain ⟨⟨_, _, hcap⟩, ⟨_, hfit⟩, _⟩ := hi
  exact (hfit.trans hcap).trans_lt (by decide)

/-! ### Reads (R84, R87 to R89) -/

theorem execRds_of_lt {a : Half} (h : a.toNat < s.S.length) :
    execRds a s =
      .next (s.endsWith s.S s.K s.err { err := .ok, data := zextByte s.S[a.toNat] }) := by
  simp only [execRds, List.getElem?_eq_getElem h, complete_eq]

theorem execRds_of_le {a : Half} (h : s.S.length ≤ a.toNat) :
    execRds a s = .next (s.faultsWith .range) := by
  simp only [execRds, List.getElem?_eq_none h, trap_eq]

/-- Settles O18: below `LEN` the answer is the byte at the index, extended; from `LEN` on RDS traps. -/
theorem rdsReadsOneByte : Obligations.RdsReadsOneByte :=
  ⟨encodedFirst_of_fields fun _ _ => rfl, fun _ _ =>
    ⟨fun h => ⟨_, zextByte_toNat _, execRds_of_lt h⟩, execRds_of_le⟩⟩

/-- Settles O19: the invariant bounds both lengths, so each register fits the data field. -/
theorem statusReadsAnswerRegisters : Obligations.StatusReadsAnswerRegisters := by
  refine ⟨encodedPlain_of_fields fun _ _ => rfl, encodedPlain_of_fields fun _ _ => rfl,
    encodedPlain_of_fields fun _ _ => rfl, fun s hi => ⟨?_, ?_, ?_⟩⟩
  · exact ⟨_, dataOfNat_toNat hi.LEN_lt, complete_eq s _⟩
  · exact ⟨_, dataOfNat_toNat hi.KLEN_lt, complete_eq s _⟩
  · exact ⟨_, zextByte_toNat s.err.code, complete_eq s _⟩

end Sys2Proof.Machine
end

section
/-! The permutation rotator (41_permutation.md R100 to R111): where each byte goes, the inverse laws, the
permutation laws, and the five commands. -/

namespace Sys2Proof.Machine

/-! ### A range of a sequence -/

section Range

variable {s : List Byte} {f g : List Byte → List Byte}

/-- A range cuts the sequence into what stands before it, in it and behind it. -/
theorem exists_range_split {lo hi : Nat} (h : lo ≤ hi) (hs : hi ≤ s.length) :
    ∃ pre mid suf, s = pre ++ mid ++ suf ∧ lo = pre.length ∧ hi = pre.length + mid.length := by
  refine ⟨s.take lo, (s.take hi).drop lo, s.drop hi, ?_, ?_, ?_⟩
  · calc s = s.take hi ++ s.drop hi := (List.take_append_drop hi s).symm
      _ = (s.take hi).take lo ++ (s.take hi).drop lo ++ s.drop hi :=
        congrArg (· ++ s.drop hi) (List.take_append_drop lo _).symm
      _ = s.take lo ++ (s.take hi).drop lo ++ s.drop hi := by
        rw [List.take_take, Nat.min_eq_left h]
  · simp; omega
  · simp; omega

theorem onRange_append (f : List Byte → List Byte) (pre mid suf : List Byte) :
    onRange f (pre ++ mid ++ suf) pre.length (pre.length + mid.length) = pre ++ f mid ++ suf := by
  have htake : (pre ++ mid ++ suf).take (pre.length + mid.length) = pre ++ mid :=
    List.take_left' List.length_append
  have hdrop : (pre ++ mid ++ suf).drop (pre.length + mid.length) = suf :=
    List.drop_left' List.length_append
  rw [onRange, htake, hdrop, List.drop_left, List.append_assoc pre mid suf, List.take_left]

/-- What R100 and R101 have in common: a range rewritten by `f` under the no-op guard. -/
def rotateRange (f : List Byte → List Byte) (s : List Byte) (start stop : Int) : List Byte :=
  if badRange s start stop then s else onRange f s start.toNat stop.toNat

theorem rotateRight_eq_rotateRange : rotateRight = rotateRange lastToFront := rfl

theorem rotateLeft_eq_rotateRange : rotateLeft = rotateRange firstToBack := rfl

/-- The guard, or a cut of the sequence at the bounds of the range. -/
theorem rotateRange_cases (s : List Byte) (a b : Int) :
    (∀ f, rotateRange f s a b = s) ∨
    ∃ pre mid suf, s = pre ++ mid ++ suf ∧ a = pre.length ∧ b = (pre.length + mid.length : Nat) ∧
      mid ≠ [] := by
  by_cases h : badRange s a b = true
  · exact .inl fun f => if_pos h
  · rw [badRange_iff] at h
    obtain ⟨pre, mid, suf, hs, ha, hb⟩ :=
      exists_range_split (s := s) (lo := a.toNat) (hi := b.toNat) (by omega) (by omega)
    refine .inr ⟨pre, mid, suf, hs, by omega, by omega, ?_⟩
    rintro rfl
    rw [List.length_nil] at hb
    omega

theorem rotateRange_append (f : List Byte → List Byte) (pre suf : List Byte) {mid : List Byte}
    (h : mid ≠ []) :
    rotateRange f (pre ++ mid ++ suf) pre.length (pre.length + mid.length : Nat) =
      pre ++ f mid ++ suf := by
  have hpos := List.length_pos_iff.2 h
  have hgood : ¬ badRange (pre ++ mid ++ suf) pre.length (pre.length + mid.length : Nat) = true := by
    rw [badRange_natCast, List.length_append, List.length_append]
    omega
  rw [rotateRange, if_neg hgood, Int.toNat_natCast, Int.toNat_natCast, onRange_append]

/-- Inverse functions on the range give inverse functions on the sequence. -/
theorem rotateRange_rotateRange (hgf : ∀ m, g (f m) = m) (hlen : ∀ m, (f m).length = m.length)
    (s : List Byte) (a b : Int) : rotateRange g (rotateRange f s a b) a b = s := by
  obtain hguard | ⟨pre, mid, suf, rfl, rfl, rfl, hmid⟩ := rotateRange_cases s a b
  · rw [hguard f, hguard g]
  · have hf : f mid ≠ [] := by
      rw [← List.length_pos_iff, hlen]
      exact List.length_pos_iff.2 hmid
    rw [rotateRange_append f pre suf hmid, ← hlen mid, rotateRange_append g pre suf hf, hgf]

theorem rotateRange_perm (hf : ∀ m, (f m).Perm m) (s : List Byte) (a b : Int) :
    (rotateRange f s a b).Perm s := by
  obtain hguard | ⟨pre, mid, suf, rfl, rfl, rfl, hmid⟩ := rotateRange_cases s a b
  · rw [hguard f]
  · rw [rotateRange_append f pre suf hmid]
    exact ((hf mid).append_left pre).append_right suf

end Range

/-! ### The rotations of a range (R100, R101) -/

theorem firstToBack_perm (m : List Byte) : (firstToBack m).Perm m := by
  cases m with
  | nil => rfl
  | cons t rest => exact List.perm_append_singleton t rest

theorem lastToFront_perm (m : List Byte) : (lastToFront m).Perm m := by
  simpa only [firstToBack_lastToFront] using (firstToBack_perm (lastToFront m)).symm

@[simp] theorem rotateLeft_rotateRight (s : List Byte) (a b : Int) :
    rotateLeft (rotateRight s a b) a b = s :=
  rotateRange_rotateRange firstToBack_lastToFront lastToFront_length s a b

@[simp] theorem rotateRight_rotateLeft (s : List Byte) (a b : Int) :
    rotateRight (rotateLeft s a b) a b = s :=
  rotateRange_rotateRange lastToFront_firstToBack firstToBack_length s a b

theorem rotateRight_perm (s : List Byte) (a b : Int) : (rotateRight s a b).Perm s :=
  rotateRange_perm lastToFront_perm s a b

theorem rotateLeft_perm (s : List Byte) (a b : Int) : (rotateLeft s a b).Perm s :=
  rotateRange_perm firstToBack_perm s a b

theorem rotateRight_of_guard {s : List Byte} {a b : Nat} (h : s.length < b ∨ b ≤ a) :
    rotateRight s a b = s := if_pos ((badRange_natCast s a b).2 h)

theorem rotateLeft_of_guard {s : List Byte} {a b : Nat} (h : s.length < b ∨ b ≤ a) :
    rotateLeft s a b = s := if_pos ((badRange_natCast s a b).2 h)

/-- `t` is `s` with the last byte of `[a, b)` at the front of the range (the equations of R100). -/
structure LastMovedToFront (s t : List Byte) (a b : Nat) : Prop where
  front : t[a]? = s[b - 1]?
  inside : ∀ k, a < k → k < b → t[k]? = s[k - 1]?
  outside : ∀ k, k < a ∨ b ≤ k → t[k]? = s[k]?

/-- R100 on a sequence cut at its range: each equation is index arithmetic over the parts. -/
theorem lastMovedToFront_append (pre l suf : List Byte) (x : Byte) :
    LastMovedToFront (pre ++ (l ++ [x]) ++ suf) (pre ++ (x :: l) ++ suf) pre.length
      (pre.length + (l ++ [x]).length) where
  front := by grind
  inside := by grind
  outside := by grind

theorem rotateRight_moves {s : List Byte} {a b : Nat} (hab : a < b) (hb : b ≤ s.length) :
    LastMovedToFront s (rotateRight s a b) a b := by
  obtain ⟨pre, mid, suf, rfl, rfl, rfl⟩ := exists_range_split hab.le hb
  have hmid : mid ≠ [] := by
    rintro rfl
    exact Nat.lt_irrefl _ hab
  obtain ⟨l, x, rfl⟩ := (List.eq_nil_or_concat' mid).resolve_left hmid
  rw [rotateRight_eq_rotateRange, rotateRange_append lastToFront pre suf hmid]
  have hx : lastToFront (l ++ [x]) = x :: l := lastToFront_firstToBack (x :: l)
  rw [hx]
  exact lastMovedToFront_append pre l suf x

/-- R101 is R100 read backwards. -/
theorem rotateLeft_moves {s : List Byte} {a b : Nat} (hab : a < b) (hb : b ≤ s.length) :
    LastMovedToFront (rotateLeft s a b) s a b := by
  have hlen : b ≤ (rotateLeft s a b).length := by rwa [rotateLeft_length]
  simpa only [rotateRight_rotateLeft] using rotateRight_moves hab hlen

/-! ### The swap (R102) -/

/-- A swap reads each position through the transposition of the two reduced positions. -/
theorem swap_getElem? {s : List Byte} (h : 0 < s.length) (i j k : Nat) :
    (swap s i j)[k]? = s[Equiv.swap (i % s.length) (j % s.length) k]? := by
  have hi : i % s.length < s.length := Nat.mod_lt i h
  have hj : j % s.length < s.length := Nat.mod_lt j h
  rw [swap_eq h]
  by_cases hkj : k = j % s.length
  · subst hkj
    rw [List.getElem?_set_self (by rwa [List.length_set]), Equiv.swap_apply_right,
      List.getElem?_eq_getElem hi]
  · rw [List.getElem?_set_ne (Ne.symm hkj)]
    by_cases hki : k = i % s.length
    · subst hki
      rw [List.getElem?_set_self hi, Equiv.swap_apply_left, List.getElem?_eq_getElem hj]
    · rw [List.getElem?_set_ne (Ne.symm hki), Equiv.swap_apply_of_ne_of_ne hki hkj]

theorem swap_swap {s : List Byte} (h : 0 < s.length) (i j : Nat) : swap (swap s i j) i j = s := by
  apply List.ext_getElem?
  intro k
  have h' : 0 < (swap s i j).length := by rwa [swap_length]
  rw [swap_getElem? h', swap_getElem? h, swap_length, Equiv.swap_apply_self]

theorem swap_perm (s : List Byte) (i j : Nat) : (swap s i j).Perm s := by
  cases s with
  | nil => rfl
  | cons x rest =>
    rw [swap_eq (List.length_pos_of_ne_nil (List.cons_ne_nil x rest))]
    exact List.set_set_perm _ _

/-! ### The whole-State rotations (R103, R104) -/

theorem unrotateState_eq_rotate {s : List Byte} {k : Nat} (h : k ≤ s.length) :
    unrotateState s k = s.rotate k :=
  (List.rotate_eq_drop_append_take h).symm

theorem rotateState_eq_rotate (s : List Byte) (k : Nat) :
    rotateState s k = s.rotate (s.length - k) :=
  unrotateState_eq_rotate (Nat.sub_le _ _)

theorem unrotateState_rotateState {s : List Byte} {k : Nat} (h : k ≤ s.length) :
    unrotateState (rotateState s k) k = s := by
  rw [unrotateState_eq_rotate (by rwa [rotateState_length]), rotateState_eq_rotate,
    List.rotate_rotate, Nat.sub_add_cancel h, List.rotate_length]

theorem unrotateState_perm (s : List Byte) (k : Nat) : (unrotateState s k).Perm s :=
  List.perm_append_comm.trans (List.Perm.of_eq (List.take_append_drop k s))

theorem rotateState_perm (s : List Byte) (k : Nat) : (rotateState s k).Perm s :=
  unrotateState_perm s _

@[simp] theorem unrotateState_zero (s : List Byte) : unrotateState s 0 = s := List.append_nil s

@[simp] theorem rotateState_zero (s : List Byte) : rotateState s 0 = s := by simp [rotateState]

theorem unrotateState_getElem? {s : List Byte} {k i : Nat} (hk : k ≤ s.length) (hi : i < s.length) :
    (unrotateState s k)[i]? = s[(i + k) % s.length]? := by
  rw [unrotateState_eq_rotate hk, List.getElem?_rotate hi]

/-- R103 is R104 read backwards. -/
theorem rotateState_getElem? {s : List Byte} {k i : Nat} (hk : k ≤ s.length) (hi : i < s.length) :
    (rotateState s k)[(i + k) % s.length]? = s[i]? := by
  have hmoved := unrotateState_getElem? (s := rotateState s k) (k := k) (i := i) (by simpa) (by simpa)
  rw [unrotateState_rotateState hk, rotateState_length] at hmoved
  exact hmoved.symm

theorem shift_le_length {s : State} (h : 0 < s.LEN) : shift s.K s.LEN ≤ s.S.length :=
  (Nat.mod_lt _ h).le

@[simp] theorem shift_nil (n : Nat) : shift [] n = 0 := Nat.zero_mod n

/-! ### The moves (42_move_layer.md R121, R122) -/

theorem rotateSelected_perm (c : Code) (clockwise : Bool) (s : List Byte) :
    (rotateSelected c clockwise s).Perm s := by
  unfold rotateSelected
  split
  · exact rotateRight_perm _ _ _
  · exact rotateLeft_perm _ _ _

theorem swapSelected_perm (c : Code) (r : Nat) (s : List Byte) : (swapSelected c r s).Perm s := by
  unfold swapSelected
  split
  · exact swap_perm _ _ _
  · rfl

theorem applyMove_perm (s : List Byte) (c : Code) (r : Nat) : (applyMove s c r).Perm s :=
  (swapSelected_perm _ _ _).trans (rotateSelected_perm _ _ _)

theorem reverseMove_perm (s : List Byte) (c : Code) (r : Nat) : (reverseMove s c r).Perm s :=
  (rotateSelected_perm _ _ _).trans (swapSelected_perm _ _ _)

/-! ### The commands (R105 to R109) -/

section Commands

variable {s : State}

theorem exec_rotr (s : State) (a b : Half) :
    exec (.rotr a b) s =
      .next (s.endsWith (rotateRight s.S a.toNat b.toNat) s.K s.err { err := .ok, data := 0 }) := rfl

theorem exec_rotl (s : State) (a b : Half) :
    exec (.rotl a b) s =
      .next (s.endsWith (rotateLeft s.S a.toNat b.toNat) s.K s.err { err := .ok, data := 0 }) := rfl

theorem exec_swap (h : 0 < s.LEN) (a b : Half) :
    exec (.swap a b) s =
      .next (s.endsWith (swap s.S a.toNat b.toNat) s.K s.err { err := .ok, data := 0 }) :=
  needState_pos h _

theorem exec_rots (h : 0 < s.LEN) :
    exec .rots s =
      .next (s.endsWith (rotateState s.S (shift s.K s.LEN)) s.K s.err { err := .ok, data := 0 }) :=
  needState_pos h _

theorem exec_urots (h : 0 < s.LEN) :
    exec .urots s =
      .next (s.endsWith (unrotateState s.S (shift s.K s.LEN)) s.K s.err { err := .ok, data := 0 }) :=
  needState_pos h _

end Commands

/-- Settles O21: the guard leaves the State as it is, and a good range moves by R100. -/
theorem rotrMovesRange : Obligations.RotrMovesRange := by
  refine ⟨encodedBoth_of_fields fun _ _ => rfl, fun s a b =>
    ⟨_, exec_rotr s a b, rfl, rotateRight_length _ _ _, ?_, rotateRight_of_guard⟩⟩
  rintro ⟨hab, hb⟩
  obtain ⟨hfront, hinside, houtside⟩ := rotateRight_moves hab hb
  exact ⟨hfront, hinside, houtside⟩

/-- Settles O22: as O21, with the equations of R100 read from the result back to the State. -/
theorem rotlMovesRange : Obligations.RotlMovesRange := by
  refine ⟨encodedBoth_of_fields fun _ _ => rfl, fun s a b =>
    ⟨_, exec_rotl s a b, rfl, rotateLeft_length _ _ _, ?_, rotateLeft_of_guard⟩⟩
  rintro ⟨hab, hb⟩
  obtain ⟨hfront, hinside, houtside⟩ := rotateLeft_moves hab hb
  exact ⟨hfront.symm, fun k hk hkb => (hinside (k + 1) (by omega) hkb).symm,
    fun k hk => (houtside k hk).symm⟩

/-- Settles O23: the transposition of the two reduced positions says where each byte comes from. -/
theorem swapExchangesTwoPositions : Obligations.SwapExchangesTwoPositions := by
  refine ⟨encodedBoth_of_fields fun _ _ => rfl, fun s a b =>
    ⟨fun h => ?_, fun h => needState_zero h _⟩⟩
  have hmoved := swap_getElem? h a.toNat b.toNat
  refine ⟨_, exec_swap h a b, rfl, swap_length _ _ _, ?_, ?_, fun k hka hkb => ?_⟩
  · exact (hmoved _).trans (congrArg (s.S[·]?) (Equiv.swap_apply_left _ _))
  · exact (hmoved _).trans (congrArg (s.S[·]?) (Equiv.swap_apply_right _ _))
  · exact (hmoved _).trans (congrArg (s.S[·]?) (Equiv.swap_apply_of_ne_of_ne hka hkb))

/-- Settles O24: `SHIFT` is below `LEN`, so R103 and R104 apply; it is 0 with an empty key. -/
theorem wholeStateRotations : Obligations.WholeStateRotations := by
  refine ⟨encodedPlain_of_fields fun _ _ => rfl, encodedPlain_of_fields fun _ _ => rfl,
    fun s h => ⟨?_, ?_⟩, fun s h => ⟨needState_zero h _, needState_zero h _⟩⟩
  · exact ⟨_, exec_rots h, rfl, rotateState_length _ _,
      fun k hk => rotateState_getElem? (shift_le_length h) hk, fun hK => by simp [hK]⟩
  · exact ⟨_, exec_urots h, rfl, unrotateState_length _ _,
      fun k hk => unrotateState_getElem? (shift_le_length h) hk, fun hK => by simp [hK]⟩

/-- Settles O25: the second command has the operands of the first, and finds `LEN` and the key unchanged. -/
theorem primitivesInvert : Obligations.PrimitivesInvert := by
  refine ⟨fun s => ⟨fun a b => ⟨rotateLeft_rotateRight s a b, rotateRight_rotateLeft s a b⟩,
    fun hs => swap_swap (List.length_pos_iff.2 hs), fun k hk => unrotateState_rotateState hk.le⟩,
    fun s a b => ⟨?_, fun h => ⟨?_, ?_⟩⟩⟩
  · exact ⟨_, _, exec_rotr s a b, exec_rotl _ a b, rotateLeft_rotateRight _ _ _⟩
  · refine ⟨_, _, exec_swap h a b, exec_swap ?_ a b, swap_swap h _ _⟩
    rwa [State.endsWith_LEN, swap_length]
  · have hlen : (rotateState s.S (shift s.K s.LEN)).length = s.LEN := rotateState_length _ _
    refine ⟨_, _, exec_rots h, exec_urots ?_, ?_⟩
    · rwa [State.endsWith_LEN, hlen]
    · rw [State.endsWith_S, State.endsWith_S, State.endsWith_K, State.endsWith_LEN, hlen]
      exact unrotateState_rotateState (shift_le_length h)

/-- Settles O26: a move is a rotation of a range and a swap. -/
theorem movesPermuteBytes : Obligations.MovesPermuteBytes := fun s =>
  ⟨fun a b => ⟨rotateRight_perm s a b, rotateLeft_perm s a b⟩, swap_perm s,
    fun k => ⟨rotateState_perm s k, unrotateState_perm s k⟩,
    fun c r => ⟨applyMove_perm s c r, reverseMove_perm s c r⟩⟩

end Sys2Proof.Machine
end

section
/-! The move layer (42_move_layer.md R120 to R125): the two halves of a move and their inverses, then the
commands MOVE and RMOVE. -/

namespace Sys2Proof.Machine

variable {s : List Byte}

/-! ### A move read from the bits of its code (R120) -/

theorem moveLo_natCast (c : Code) (n : Nat) :
    (moveLo c n : Int) = (if c.getLsbD 3 then 0 else (n / 2 : Nat) : Int) :=
  Nat.cast_ite _ 0 (n / 2)

theorem moveHi_natCast (c : Code) (n : Nat) :
    (moveHi c n : Int) = (if c.getLsbD 3 then (n / 2 : Nat) else (n : Nat) : Int) :=
  Nat.cast_ite _ (n / 2) n

theorem rotateSelected_eq (c : Code) (clockwise : Bool) (s : List Byte) :
    rotateSelected c clockwise s =
      let lo : Int := if c.getLsbD 3 then 0 else (s.length / 2 : Nat)
      let hi : Int := if c.getLsbD 3 then (s.length / 2 : Nat) else (s.length : Nat)
      if clockwise then rotateRight s lo hi else rotateLeft s lo hi := by
  rw [rotateSelected, moveLo_natCast, moveHi_natCast]

theorem swapSelected_eq (c : Code) (r : Nat) (s : List Byte) :
    swapSelected c r s =
      let i := (r + c.toNat) % s.length
      if c.getLsbD 0 then swap s i ((i + 1) % s.length) else s := rfl

/-! ### The inverse laws (R125) -/

/-- The two directions undo each other on the range, which depends on the code and the length only. -/
theorem rotateSelected_rotateSelected_not (c : Code) (clockwise : Bool) (s : List Byte) :
    rotateSelected c clockwise (rotateSelected c (!clockwise) s) = s := by
  rw [rotateSelected, rotateSelected_length]
  cases clockwise with
  | true => exact rotateRight_rotateLeft s _ _
  | false => exact rotateLeft_rotateRight s _ _

/-- The swap of a code is its own inverse: its positions depend on code, round and length only. -/
theorem swapSelected_swapSelected (h : 0 < s.length) (c : Code) (r : Nat) :
    swapSelected c r (swapSelected c r s) = s := by
  by_cases hc : codeB3 c = true
  · rw [swapSelected, if_pos hc, swapSelected_length, swapSelected, if_pos hc]
    exact swap_swap h _ _
  · rw [swapSelected, if_neg hc, swapSelected, if_neg hc]

theorem reverseMove_applyMove (h : 0 < s.length) (c : Code) (r : Nat) :
    reverseMove (applyMove s c r) c r = s := by
  have hpos : 0 < (rotateSelected c (forwardClockwise c) s).length := by
    rwa [rotateSelected_length]
  rw [reverseMove, applyMove, swapSelected_swapSelected hpos, reverseClockwise_eq_not]
  simpa only [Bool.not_not] using rotateSelected_rotateSelected_not c (!forwardClockwise c) s

theorem applyMove_reverseMove (h : 0 < s.length) (c : Code) (r : Nat) :
    applyMove (reverseMove s c r) c r = s := by
  rw [applyMove, reverseMove, reverseClockwise_eq_not, rotateSelected_rotateSelected_not,
    swapSelected_swapSelected h]

/-! ### Length 1 (R123) -/

/-- A single byte has one permutation only. -/
theorem applyMove_of_length_one (h : s.length = 1) (c : Code) (r : Nat) : applyMove s c r = s := by
  obtain ⟨x, rfl⟩ := List.length_eq_one_iff.1 h
  exact List.perm_singleton.1 (applyMove_perm _ c r)

theorem reverseMove_of_length_one (h : s.length = 1) (c : Code) (r : Nat) :
    reverseMove s c r = s := by
  obtain ⟨x, rfl⟩ := List.length_eq_one_iff.1 h
  exact List.perm_singleton.1 (reverseMove_perm _ c r)

/-! ### The commands (R123, R124) -/

theorem exec_move {s : State} (h : 0 < s.LEN) (r : Half) (c : Code) :
    exec (.move r c) s =
      .next (s.endsWith (applyMove s.S c r.toNat) s.K s.err { err := .ok, data := 0 }) :=
  needState_pos h _

theorem exec_rmove {s : State} (h : 0 < s.LEN) (r : Half) (c : Code) :
    exec (.rmove r c) s =
      .next (s.endsWith (reverseMove s.S c r.toNat) s.K s.err { err := .ok, data := 0 }) :=
  needState_pos h _

/-- Settles O27: the rotation and the swap are read from the bits of the code; RMOVE rotates what the swap
gives, which has the length of the State. -/
theorem movesRotateAndSwap : Obligations.MovesRotateAndSwap := by
  refine ⟨encodedCode_of_fields fun _ _ => rfl, encodedCode_of_fields fun _ _ => rfl,
    fun s r c h => ⟨needState_zero h _, needState_zero h _⟩, fun s r c h => ⟨?_, ?_⟩⟩
  · rw [exec_move h, applyMove, swapSelected_eq, rotateSelected_length, rotateSelected_eq]
    rfl
  · rw [exec_rmove h, reverseMove, rotateSelected_eq, swapSelected_length, swapSelected_eq]
    rfl

/-- Settles O28: the second command finds a State of the same length, so it is not empty. -/
theorem moveIsInvertible : Obligations.MoveIsInvertible := by
  refine ⟨fun s c r hs => ?_, fun s r c h => ?_⟩
  · have h := List.length_pos_iff.2 hs
    exact ⟨reverseMove_applyMove h c r, applyMove_reverseMove h c r⟩
  · refine ⟨_, _, exec_move h r c, exec_rmove ?_ r c, reverseMove_applyMove h c r.toNat⟩
    rwa [State.endsWith_LEN, applyMove_length]

/-- Settles O29: both moves keep a State of one byte. -/
theorem lengthOneMovesChangeNothing : Obligations.LengthOneMovesChangeNothing := by
  intro s r c h
  have hpos : 0 < s.LEN := h ▸ Nat.one_pos
  rw [exec_move hpos, exec_rmove hpos, applyMove_of_length_one h, reverseMove_of_length_one h]
  exact ⟨rfl, rfl⟩

end Sys2Proof.Machine
end

section
/-! The key schedule (43_key_schedule.md R131 to R137): the codes and the round keys a key gives, then the
commands GETMC, GETRK and GETSHIFT. -/

namespace Sys2Proof.Machine

variable {s : State}

/-! ### The MoveCodes of a key (R131) -/

@[simp] theorem zextCode_toNat (c : Code) : (zextCode c).toNat = c.toNat :=
  BitVec.toNat_setWidth_of_le (by decide)

theorem highNibble_toNat (v : Byte) : (highNibble v).toNat = v.toNat / 16 := by
  have := byte_nibbles v
  have := (lowNibble v).isLt
  omega

theorem lowNibble_toNat (v : Byte) : (lowNibble v).toNat = v.toNat % 16 := by
  have := byte_nibbles v
  have := (lowNibble v).isLt
  omega

/-- `MC[j]` is a nibble of the key byte at `j div 2`. -/
theorem moveCodes_getElem? (K : List Byte) (j : Nat) :
    (moveCodes K)[j]? = K[j / 2]?.map (if j % 2 = 0 then highNibble else lowNibble) := by
  induction K generalizing j with
  | nil => rfl
  | cons v K ih =>
    match j with
    | 0 | 1 => rfl
    | j + 2 =>
      rw [Nat.add_div_right j two_pos, Nat.add_mod_right]
      exact ih j

/-! ### The round keys (R133) -/

/-- With a key the formula reads a key byte, not the default. -/
theorem roundKeyByte_toNat {K : List Byte} (hk : 0 < K.length) (r i : Nat) :
    (roundKeyByte K r i).toNat =
      ((K[i % K.length]'(Nat.mod_lt _ hk)).toNat * 31 + (K.map BitVec.toNat).sum + r + i) % 256 := by
  rw [roundKeyByte, BitVec.toNat_ofNat, ← List.getElem_eq_getD (h := Nat.mod_lt _ hk)]
  rfl

/-- The round enters the formula as a summand. -/
theorem roundKeyByte_add (K : List Byte) (r d i : Nat) :
    roundKeyByte K (r + d) i = roundKeyByte K r i + BitVec.ofNat 8 d := by
  rw [roundKeyByte, roundKeyByte, ← BitVec.ofNat_add]
  congr 1
  omega

/-- Settles O37: the summands 1 and 256 modulo 256. -/
theorem roundKeysStepByOne : Obligations.RoundKeysStepByOne := fun K r i =>
  ⟨roundKeyByte_add K r 1 i, (roundKeyByte_add K r 256 i).trans (BitVec.add_zero _)⟩

/-! ### GETMC (R135) -/

theorem exec_getmc_of_lt {j : Half} (h : j.toNat / 2 < s.K.length) :
    exec (.getmc j) s = .next (s.endsWith s.S s.K s.err
      { err := .ok
        data := zextCode ((if j.toNat % 2 = 0 then highNibble else lowNibble) s.K[j.toNat / 2]) }) := by
  change execGetmc j s = _
  simp only [execGetmc, moveCodes_getElem?, List.getElem?_eq_getElem h, Option.map_some, complete_eq]

theorem exec_getmc_of_le {j : Half} (h : 2 * s.KLEN ≤ j.toNat) :
    exec (.getmc j) s = .next (s.faultsWith .range) := by
  have hnone : (moveCodes s.K)[j.toNat]? = none :=
    List.getElem?_eq_none (by rwa [moveCodes_length])
  change execGetmc j s = _
  simp only [execGetmc, hnone, trap_eq]

/-- Settles O34: the answer is a nibble of the byte at `j div 2`, the high one for an even `j`. -/
theorem getmcReadsNibbles : Obligations.GetmcReadsNibbles := by
  refine ⟨encodedFirst_of_fields fun _ _ => rfl, fun s j =>
    ⟨fun h => ⟨_, ?_, exec_getmc_of_lt h⟩, exec_getmc_of_le⟩⟩
  rw [zextCode_toNat]
  split
  · exact highNibble_toNat _
  · exact lowNibble_toNat _

/-! ### GETRK (R136) -/

theorem exec_getrk_of_lt {r i : Half} (hk : 0 < s.KLEN) (hi : i.toNat < s.LEN) :
    exec (.getrk r i) s = .next (s.endsWith s.S s.K s.err
      { err := .ok, data := zextByte (roundKeyByte s.K r.toNat i.toNat) }) :=
  (needKey_pos hk _).trans (if_neg (Nat.not_le.2 hi))

theorem exec_getrk_of_le {r i : Half} (hk : 0 < s.KLEN) (hi : s.LEN ≤ i.toNat) :
    exec (.getrk r i) s = .next (s.faultsWith .range) :=
  (needKey_pos hk _).trans (if_pos hi)

/-- Settles O35: the key is checked before the position, and the answer is the round-key byte extended. -/
theorem getrkAnswersRoundKeyByte : Obligations.GetrkAnswersRoundKeyByte :=
  ⟨encodedBoth_of_fields fun _ _ => rfl, fun _ r i =>
    ⟨fun hk hi => ⟨_, (zextByte_toNat _).trans (roundKeyByte_toNat hk r.toNat i.toNat),
        exec_getrk_of_lt hk hi⟩,
      fun h => needKey_zero h _, exec_getrk_of_le⟩⟩

/-! ### GETSHIFT (R137) -/

theorem exec_getshift (h : 0 < s.LEN) :
    exec .getshift s = .next (s.endsWith s.S s.K s.err
      { err := .ok, data := dataOfNat (shift s.K s.LEN) }) :=
  needState_pos h _

/-- Settles O36: `SHIFT` is below `LEN`, which the invariant bounds, so it fits the data field. -/
theorem getshiftAnswersShift : Obligations.GetshiftAnswersShift := by
  refine ⟨encodedPlain_of_fields fun _ _ => rfl, fun s hi h => ?_, fun s h => needState_zero h _⟩
  have hshift : shift s.K s.LEN < 65536 := (Nat.mod_lt _ h).trans hi.LEN_lt
  exact ⟨_, dataOfNat_toNat hshift, exec_getshift h⟩

end Sys2Proof.Machine
end

section
/-! Diffusion and mixing (44_diffusion_mixing.md R140 to R147): what the passes give position by position,
their inverse laws and the in-place loops, then the commands DIFF, MIX and RMIX. -/

namespace Sys2Proof.Machine

variable {s : List Byte}

/-! ### The multipliers 17 and 241 (R143) -/

theorem mul_mixMultiplier_mul_inverse17 (x : Byte) :
    x * Config.mixMultiplier * Config.inverse17 = x := by
  have hone : Config.mixMultiplier * Config.inverse17 = 1 := by decide
  rw [BitVec.mul_assoc, hone, mul_one]

theorem mul_inverse17_mul_mixMultiplier (x : Byte) :
    x * Config.inverse17 * Config.mixMultiplier = x :=
  (mul_right_comm x _ _).trans (mul_mixMultiplier_mul_inverse17 x)

theorem mul_eq_one_iff_eq_inverse17 (x : Byte) : 17 * x = 1 ↔ x = Config.inverse17 := by
  constructor
  · intro h
    calc x = x * Config.mixMultiplier * Config.inverse17 := (mul_mixMultiplier_mul_inverse17 x).symm
      _ = 1 * Config.inverse17 := congrArg (· * Config.inverse17) ((BitVec.mul_comm x _).trans h)
      _ = Config.inverse17 := BitVec.one_mul _
  · rintro rfl
    decide

/-- A byte of MIX as a number (R141). -/
theorem mixByte_toNat (x p : Byte) :
    (x * Config.mixMultiplier + p).toNat = (17 * x.toNat + p.toNat) % 256 := by
  rw [BitVec.toNat_add, BitVec.toNat_mul, Nat.mod_add_mod, Nat.mul_comm]
  rfl

/-- A byte of RMIX as a number: the difference may be negative, and `%` is the floor modulus (R142). -/
theorem unmixByte_toNat (y p : Byte) :
    (((y - p) * Config.inverse17).toNat : Int) =
      ((y.toNat : Int) - (p.toNat : Int)) * 241 % 256 := by
  have hp := p.isLt
  have hinv : Config.inverse17.toNat = 241 := rfl
  rw [BitVec.toNat_mul, BitVec.toNat_sub, Nat.mod_mul_mod, hinv]
  omega

/-! ### The passes, position by position (R141, R142) -/

/-- Each byte is mixed with the result to its left, `p` at position 0. -/
theorem mixFrom_getElem (p : Byte) {k : Nat} (hs : k < s.length) :
    (mixFrom p s)[k]'(by simpa) =
      s[k] * Config.mixMultiplier + (p :: mixFrom p s)[k]'(by simp; omega) := by
  induction s generalizing p k with
  | nil => exact absurd hs (Nat.not_lt_zero k)
  | cons x rest ih =>
    cases k with
    | zero => rfl
    | succ k => exact ih _ (Nat.lt_of_succ_lt_succ hs)

/-- Each byte is unmixed with the byte to its left as it was before, `p` at position 0. -/
theorem unmixFrom_getElem (p : Byte) {k : Nat} (hs : k < s.length) :
    (unmixFrom p s)[k]'(by simpa) =
      (s[k] - (p :: s)[k]'(by simp; omega)) * Config.inverse17 := by
  induction s generalizing p k with
  | nil => exact absurd hs (Nat.not_lt_zero k)
  | cons y rest ih =>
    cases k with
    | zero => rfl
    | succ k => exact ih _ (Nat.lt_of_succ_lt_succ hs)

/-- MIX is the pass whose first neighbour is the last byte. -/
theorem mix_of_getLast? {p : Byte} (h : s.getLast? = some p) : mix s = mixFrom p s := by
  simp only [mix, h]

theorem mix_cons (x : Byte) (rest : List Byte) :
    mix (x :: rest) = mixFrom (rest.getLast?.getD x) (x :: rest) :=
  mix_of_getLast? List.getLast?_cons

theorem reverseMix_cons (y : Byte) (rest : List Byte) :
    reverseMix (y :: rest) = unmixFrom ((unmixFrom y rest).getLast?.getD y) (y :: rest) := rfl

/-- From two bytes on, RMIX is the pass whose first neighbour is the last byte of its own result. -/
theorem reverseMix_of_getLast? {p : Byte} (h : 1 < s.length)
    (hp : (unmixFrom p s).getLast? = some p) : reverseMix s = unmixFrom p s := by
  match s with
  | y :: z :: rest =>
    have hlast : (unmixFrom y (z :: rest)).getLast? = some p := by
      rwa [unmixFrom, unmixFrom, List.getLast?_cons_cons] at hp
    rw [reverseMix_cons, hlast, Option.getD_some]

/-- There is such a neighbour: the last byte does not depend on what the pass starts from. -/
theorem exists_unmixFrom_getLast? (h : 1 < s.length) :
    ∃ p, (unmixFrom p s).getLast? = some p := by
  match s with
  | y :: z :: rest =>
    refine ⟨(unmixFrom y (z :: rest)).getLastD 0, ?_⟩
    rw [unmixFrom, unmixFrom, List.getLast?_cons_cons, List.getLast?_cons, List.getLastD_cons,
      List.getLastD_eq_getLast?]

theorem mix_getElem_zero (h : 0 < s.length) :
    (mix s)[0]'(by simpa) = s[0] * Config.mixMultiplier + s[s.length - 1] := by
  have hlast : s.getLast? = some s[s.length - 1] := by
    rw [List.getLast?_eq_getElem?, List.getElem?_eq_getElem]
  simp only [mix_of_getLast? hlast, mixFrom_getElem _ h, List.getElem_cons_zero]

theorem mix_getElem_succ {k : Nat} (h : k + 1 < s.length) :
    (mix s)[k + 1]'(by simpa) =
      s[k + 1] * Config.mixMultiplier + (mix s)[k]'(by simp; omega) := by
  obtain ⟨x, rest, rfl⟩ := List.exists_cons_of_length_pos (Nat.zero_lt_of_lt h)
  simp only [mix_cons, mixFrom_getElem _ h, List.getElem_cons_succ]

theorem reverseMix_getElem_succ {k : Nat} (h : k + 1 < s.length) :
    (reverseMix s)[k + 1]'(by simpa) = (s[k + 1] - s[k]) * Config.inverse17 := by
  obtain ⟨y, rest, rfl⟩ := List.exists_cons_of_length_pos (Nat.zero_lt_of_lt h)
  simp only [reverseMix_cons, unmixFrom_getElem _ h, List.getElem_cons_succ]

theorem reverseMix_getElem_zero (h : 1 < s.length) :
    (reverseMix s)[0]'(by simp; omega) =
      (s[0] - (reverseMix s)[s.length - 1]'(by simp; omega)) * Config.inverse17 := by
  obtain ⟨p, hp⟩ := exists_unmixFrom_getLast? h
  have hlast : (unmixFrom p s)[s.length - 1]'(by simp; omega) = p := by
    rw [List.getLast?_eq_getElem?, unmixFrom_length] at hp
    exact List.getElem_eq_iff _ |>.2 hp
  simp only [reverseMix_of_getLast? h hp, hlast, unmixFrom_getElem p (Nat.zero_lt_of_lt h),
    List.getElem_cons_zero]

/-! ### The inverse laws (R147) -/

theorem diffuse_diffuse {k : List Byte} (h : s.length = k.length) :
    diffuse (diffuse s k) k = s := by
  refine List.ext_getElem (by simp [h]) fun i hi hs => ?_
  simp only [diffuse, List.getElem_zipWith, BitVec.xor_assoc, BitVec.xor_self, BitVec.xor_zero]

theorem unmixFrom_mixFrom (p : Byte) (s : List Byte) : unmixFrom p (mixFrom p s) = s := by
  induction s generalizing p with
  | nil => rfl
  | cons x rest ih =>
    rw [mixFrom, unmixFrom, BitVec.add_sub_cancel, mul_mixMultiplier_mul_inverse17, ih]

theorem mixFrom_unmixFrom (p : Byte) (s : List Byte) : mixFrom p (unmixFrom p s) = s := by
  induction s generalizing p with
  | nil => rfl
  | cons y rest ih =>
    rw [unmixFrom, mixFrom, mul_inverse17_mul_mixMultiplier, BitVec.sub_add_cancel, ih]

theorem reverseMix_mix (h : 1 < s.length) : reverseMix (mix s) = s := by
  have hlast := List.getLast?_eq_some_getLast (List.ne_nil_of_length_pos (Nat.zero_lt_of_lt h))
  rw [mix_of_getLast? hlast, reverseMix_of_getLast? (by rwa [mixFrom_length])]
  · exact unmixFrom_mixFrom _ s
  · rw [unmixFrom_mixFrom, hlast]

theorem mix_reverseMix (h : 1 < s.length) : mix (reverseMix s) = s := by
  obtain ⟨p, hp⟩ := exists_unmixFrom_getLast? h
  rw [reverseMix_of_getLast? h hp, mix_of_getLast? hp, mixFrom_unmixFrom]

/-- The byte is its own neighbour, so the multiplier is 17 + 1. -/
theorem mix_singleton (x : Byte) : mix [x] = [18 * x] :=
  congrArg ([·]) ((mul_add_one x Config.mixMultiplier).symm.trans (mul_comm x _))

/-- The byte is its own neighbour, so the difference is 0. -/
theorem reverseMix_singleton (x : Byte) : reverseMix [x] = [0] := by
  rw [reverseMix_cons, unmixFrom, unmixFrom, unmixFrom, List.getLast?_nil, Option.getD_none,
    sub_self, zero_mul]

/-- Settles O42: the laws for MIX and RMIX are those of the passes from two bytes on, and trivial on the
empty sequence. -/
theorem mixInverseLaws : Obligations.MixInverseLaws := by
  refine ⟨fun s k h => diffuse_diffuse h, fun s h => ?_,
    fun x => ⟨mix_singleton x, reverseMix_singleton x⟩, mul_eq_one_iff_eq_inverse17⟩
  obtain h0 | h2 : s.length = 0 ∨ 1 < s.length := by omega
  · rw [List.length_eq_zero_iff.1 h0]
    exact ⟨rfl, rfl⟩
  · exact ⟨reverseMix_mix h2, mix_reverseMix h2⟩

/-! ### The in-place loops (R141, R142) -/

/-- What the loops read to the left of position `i`, modulo the length. -/
def leftNeighbour (s : List Byte) (i : Nat) : Byte := s.getD ((i + s.length - 1) % s.length) 0

theorem leftNeighbour_zero (x : Byte) (rest : List Byte) :
    leftNeighbour (x :: rest) 0 = rest.getLast?.getD x := by
  have hindex : (0 + (x :: rest).length - 1) % (x :: rest).length = (x :: rest).length - 1 := by
    rw [Nat.zero_add, Nat.mod_eq_of_lt (by simp)]
  rw [leftNeighbour, hindex, List.getD_eq_getElem?_getD, ← List.getLast?_eq_getElem?,
    List.getLast?_cons, Option.getD_some]

theorem leftNeighbour_append (pre suf : List Byte) (p : Byte) :
    leftNeighbour (pre ++ p :: suf) (pre.length + 1) = p := by
  have hindex : (pre.length + 1 + (pre ++ p :: suf).length - 1) % (pre ++ p :: suf).length =
      pre.length := by
    rw [Nat.add_right_comm, Nat.add_sub_cancel, Nat.add_mod_right, Nat.mod_eq_of_lt (by simp)]
  rw [leftNeighbour, hindex]
  simp

theorem mixAt_eq_set (s : List Byte) (i : Nat) :
    mixAt s i = s.set i (s.getD i 0 * Config.mixMultiplier + leftNeighbour s i) := rfl

theorem unmixAt_eq_set (s : List Byte) (i : Nat) :
    unmixAt s i = s.set i ((s.getD i 0 - leftNeighbour s i) * Config.inverse17) := rfl

theorem mixAt_zero (x : Byte) (rest : List Byte) :
    mixAt (x :: rest) 0 = (x * Config.mixMultiplier + rest.getLast?.getD x) :: rest := by
  rw [mixAt_eq_set, leftNeighbour_zero, List.set_cons_zero, List.getD_cons_zero]

theorem unmixAt_zero (y : Byte) (rest : List Byte) :
    unmixAt (y :: rest) 0 = ((y - rest.getLast?.getD y) * Config.inverse17) :: rest := by
  rw [unmixAt_eq_set, leftNeighbour_zero, List.set_cons_zero, List.getD_cons_zero]

theorem mixAt_append (pre suf : List Byte) (p x : Byte) :
    mixAt (pre ++ p :: x :: suf) (pre.length + 1) =
      pre ++ p :: (x * Config.mixMultiplier + p) :: suf := by
  rw [mixAt_eq_set, leftNeighbour_append]
  simp

theorem unmixAt_append (pre suf : List Byte) (p y : Byte) :
    unmixAt (pre ++ p :: y :: suf) (pre.length + 1) =
      pre ++ p :: ((y - p) * Config.inverse17) :: suf := by
  rw [unmixAt_eq_set, leftNeighbour_append]
  simp

/-- The ascending loop from a position whose left neighbour is already mixed. -/
theorem foldl_mixAt_append (pre suf : List Byte) (p : Byte) :
    (List.range' (pre.length + 1) suf.length).foldl mixAt (pre ++ p :: suf) =
      pre ++ p :: mixFrom p suf := by
  induction suf generalizing pre p with
  | nil => rfl
  | cons x suf ih =>
    rw [List.length_cons, List.range'_succ, List.foldl_cons, mixAt_append]
    simpa [mixFrom] using ih (pre ++ [p]) (x * Config.mixMultiplier + p)

/-- The descending loop down to a position whose left neighbour is not yet rewritten. -/
theorem foldl_unmixAt_append (pre suf : List Byte) (p : Byte) :
    (List.range' (pre.length + 1) suf.length).reverse.foldl unmixAt (pre ++ p :: suf) =
      pre ++ p :: unmixFrom p suf := by
  induction suf generalizing pre p with
  | nil => rfl
  | cons y suf ih =>
    have hrest : (List.range' (pre.length + 1 + 1) suf.length).reverse.foldl unmixAt
        (pre ++ p :: y :: suf) = pre ++ p :: y :: unmixFrom y suf := by
      simpa using ih (pre ++ [p]) y
    rw [List.length_cons, List.range'_succ, List.reverse_cons, List.foldl_append, hrest]
    exact unmixAt_append pre _ p y

theorem range_cons_length (x : Byte) (rest : List Byte) :
    List.range (x :: rest).length = 0 :: List.range' 1 rest.length := by
  rw [List.length_cons, List.range_eq_range', List.range'_succ]

theorem mix_eq_foldl_mixAt (s : List Byte) : mix s = (List.range s.length).foldl mixAt s := by
  cases s with
  | nil => rfl
  | cons x rest =>
    rw [range_cons_length, List.foldl_cons, mixAt_zero, mix_cons]
    exact (foldl_mixAt_append [] rest _).symm

theorem reverseMix_eq_foldl_unmixAt (s : List Byte) :
    reverseMix s = (List.range s.length).reverse.foldl unmixAt s := by
  cases s with
  | nil => rfl
  | cons y rest =>
    have hrest : (List.range' 1 rest.length).reverse.foldl unmixAt (y :: rest) =
        y :: unmixFrom y rest := foldl_unmixAt_append [] rest y
    rw [range_cons_length, List.reverse_cons, List.foldl_append, hrest]
    exact (unmixAt_zero y _).symm

/-- Settles O41: position 0 is the first that MIX and the last that RMIX rewrites; the other positions are
the passes of the recursions. -/
theorem mixPassesEqualInPlaceLoops : Obligations.MixPassesEqualInPlaceLoops := fun s =>
  ⟨mix_eq_foldl_mixAt s, reverseMix_eq_foldl_unmixAt s⟩

/-! ### DIFF (R144) -/

/-- The round-key byte as the formula over the key bytes. -/
theorem roundKeyByte_eq_ofNat {K : List Byte} (hk : 0 < K.length) (r i : Nat) :
    roundKeyByte K r i = BitVec.ofNat 8
      ((K[i % K.length]'(Nat.mod_lt _ hk)).toNat * 31 + (K.map BitVec.toNat).sum + r + i) :=
  BitVec.eq_of_toNat_eq (by rw [roundKeyByte_toNat hk, BitVec.toNat_ofNat])

theorem diffuse_roundKey_length (s K : List Byte) (r : Nat) :
    (diffuse s (roundKey K r s.length)).length = s.length := by simp

theorem diffuse_roundKey_getElem? (K : List Byte) (r : Nat) {k : Nat} (h : k < s.length) :
    (diffuse s (roundKey K r s.length))[k]? = some (s[k] ^^^ roundKeyByte K r k) := by
  rw [diffuse, List.getElem?_zipWith, roundKey_getElem? K r h, List.getElem?_eq_getElem h]

theorem exec_diff {s : State} (hk : 0 < s.KLEN) (r : Half) :
    exec (.diff r) s = .next (s.endsWith (diffuse s.S (roundKey s.K r.toNat s.S.length)) s.K s.err
      { err := .ok, data := 0 }) :=
  needKey_pos hk _

/-- Settles O38: the State is XORed with the round key of its length, whose bytes the formula gives. -/
theorem diffXorsRoundKey : Obligations.DiffXorsRoundKey := by
  refine ⟨encodedFirst_of_fields fun _ _ => rfl, fun s r hk =>
    ⟨_, exec_diff hk r, rfl, diffuse_roundKey_length _ _ _, fun k h => ?_⟩,
    fun s r h => needKey_zero h _⟩
  rw [← roundKeyByte_eq_ofNat hk]
  exact diffuse_roundKey_getElem? s.K r.toNat h

/-! ### MIX and RMIX (R145, R146) -/

theorem exec_mix (s : State) :
    exec .mix s = .next (s.endsWith (mix s.S) s.K s.err { err := .ok, data := 0 }) := rfl

theorem exec_rmix (s : State) :
    exec .rmix s = .next (s.endsWith (reverseMix s.S) s.K s.err { err := .ok, data := 0 }) := rfl

/-- Settles O39: the equations of the pass, read as numbers. -/
theorem mixEquations : Obligations.MixEquations := by
  refine ⟨encodedPlain_of_fields fun _ _ => rfl, fun s =>
    ⟨_, exec_mix s, rfl, mix_length _, fun hs _ => ?_, fun k hs _ => ?_⟩⟩
  · simp only [State.endsWith_S, mix_getElem_zero hs, mixByte_toNat]
  · simp only [State.endsWith_S, mix_getElem_succ hs, mixByte_toNat]

/-- Settles O40: the equations of the pass, read as integers; a single byte becomes 0. -/
theorem rmixEquations : Obligations.RmixEquations := by
  refine ⟨encodedPlain_of_fields fun _ _ => rfl, fun s =>
    ⟨_, exec_rmix s, rfl, reverseMix_length _, fun k hs _ => ?_, fun hs _ => ?_, fun h => ?_⟩⟩
  · simp only [State.endsWith_S, reverseMix_getElem_succ hs]
    exact unmixByte_toNat _ _
  · simp only [State.endsWith_S, reverseMix_length]
    rw [reverseMix_getElem_zero hs]
    exact unmixByte_toNat _ _
  · obtain ⟨x, hx⟩ := List.length_eq_one_iff.1 h
    rw [State.endsWith_S, hx, reverseMix_singleton]

end Sys2Proof.Machine
end

section
/-! The MoveCodes in a round of a running command (45_orchestrator.md R158, R159; log entries 6, 7). -/

namespace Sys2Proof.Machine

variable {s : State} {m : Macro} {r j : Nat}

/-! ### Where the sequencer goes after a move -/

theorem afterMove_eq (s : State) (m : Macro) (r j : Nat) :
    afterMove s m r j =
      s.withSeq (if j + 1 < nmc s.K then .running m .move r (j + 1) else .running m .diff r 0) :=
  (apply_ite s.withSeq _ _ _).symm

theorem afterRmove_succ (s : State) (m : Macro) (r j : Nat) :
    afterRmove s m r (j + 1) = s.withSeq (.running m .rmove r j) := rfl

theorem afterRmove_zero_rndr (s : State) (r : Nat) : afterRmove s .rndr r 0 = s.respond 0 := rfl

theorem afterRmove_zero_dec (s : State) (rounds r : Nat) :
    afterRmove s (.dec rounds) r 0 =
      s.withSeq (if r = 0 then .running (.dec rounds) .unrot 0 0
        else .running (.dec rounds) .rmix (r - 1) 0) :=
  (apply_ite s.withSeq _ _ _).symm

/-! ### The move of a phase -/

theorem execMoveCode_move (c : Code) (h : 0 < s.LEN) (hs : s.seq = .running m .move r j) :
    execMoveCode c s = .next (afterMove (s.withS (applyMove s.S c r)) m r j) := by
  simp only [execMoveCode, hs, needState_pos h]

theorem execMoveCode_rmove (c : Code) (h : 0 < s.LEN) (hs : s.seq = .running m .rmove r j) :
    execMoveCode c s = .next (afterRmove (s.withS (reverseMove s.S c r)) m r j) := by
  simp only [execMoveCode, hs, needState_pos h]

/-- Settles O30: each of the 16 instructions is the shared move, and the sequencer counts up to `NMC`. -/
theorem moveCodeInForwardRound : Obligations.MoveCodeInForwardRound := by
  intro s c m r j h hs
  rw [exec_decodeMoveCode, execMoveCode_move c h hs, afterMove_eq]
  rfl

/-- Settles O31: above index 0 the sequencer steps down. -/
theorem moveCodeInReverseRound : Obligations.MoveCodeInReverseRound := by
  intro s c m r j h hs
  rw [exec_decodeMoveCode, execMoveCode_rmove c h hs, afterRmove_succ]
  rfl

/-- Settles O32: at index 0 what follows depends on the command, and for DEC on the round. -/
theorem moveCodeEndsReverseRound : Obligations.MoveCodeEndsReverseRound := by
  intro s c r h
  rw [exec_decodeMoveCode]
  refine ⟨fun hs => ?_, fun rounds hs => ?_⟩
  · rw [execMoveCode_rmove c h hs, afterRmove_zero_rndr]
    rfl
  · rw [execMoveCode_rmove c h hs, afterRmove_zero_dec]
    rfl

end Sys2Proof.Machine
end

section
/-! RNDF, RNDR, ENC and DEC as single commands (45_orchestrator.md R150 to R157), as their expansions
(R162, 30_encoding.md R71), and what DEC and RNDR undo (R161). -/

namespace Sys2Proof.Machine

variable {s : State} {K : List Byte}

/-! ### The commands (R154 to R157) -/

theorem needBoth_emptyState (h : s.LEN = 0) (o : Result) :
    needBoth s o = .next (s.faultsWith .emptyState) :=
  needState_zero h _

theorem needBoth_emptyKey (h : 0 < s.LEN) (hk : s.KLEN = 0) (o : Result) :
    needBoth s o = .next (s.faultsWith .emptyKey) :=
  (needState_pos h _).trans (needKey_zero hk _)

theorem exec_rndf (h : 0 < s.LEN) (hk : 0 < s.KLEN) (n : Half) :
    exec (.rndf n) s =
      .next (s.endsWith (roundF s.K s.S n.toNat) s.K s.err { err := .ok, data := 0 }) :=
  needBoth_pos h hk _

theorem exec_rndr (h : 0 < s.LEN) (hk : 0 < s.KLEN) (n : Half) :
    exec (.rndr n) s =
      .next (s.endsWith (roundR s.K s.S n.toNat) s.K s.err { err := .ok, data := 0 }) :=
  needBoth_pos h hk _

theorem exec_enc (h : 0 < s.LEN) (hk : 0 < s.KLEN) (n : Half) :
    exec (.enc n) s =
      .next (s.endsWith (encryptCore s.K s.S n.toNat) s.K s.err { err := .ok, data := 0 }) :=
  needBoth_pos h hk _

theorem exec_dec (h : 0 < s.LEN) (hk : 0 < s.KLEN) (n : Half) :
    exec (.dec n) s =
      .next (s.endsWith (decryptCore s.K s.S n.toNat) s.K s.err { err := .ok, data := 0 }) :=
  needBoth_pos h hk _

/-- Each of the four commands checks the State and then the key before the rest. -/
theorem exec_eq_needBoth {i : Instr} {n : Half} (hi : i ∈ [.rndf n, .rndr n, .enc n, .dec n])
    (s : State) : ∃ o, exec i s = needBoth s o := by
  simp only [List.mem_cons, List.not_mem_nil, or_false] at hi
  obtain rfl | rfl | rfl | rfl := hi <;> exact ⟨_, rfl⟩

/-- The rounds keep the length, so DEC rotates back by the `SHIFT` of the State it found. -/
theorem decryptCore_eq (K S : List Byte) (n : Nat) :
    decryptCore K S n =
      unrotateState ((List.range n).reverse.foldl (roundR K) S) (shift K S.length) := by
  rw [decryptCore, foldl_length (roundR_length K)]

/-- Settles O43: the checks come first, in their order, and the functions are the rounds of R150 and R151
unfolded. -/
theorem macroCommandsComplete : Obligations.MacroCommandsComplete := by
  refine ⟨encodedFirst_of_fields fun _ _ => rfl, encodedFirst_of_fields fun _ _ => rfl,
    encodedFirst_of_fields fun _ _ => rfl, encodedFirst_of_fields fun _ _ => rfl,
    fun s n i hi => ?_, fun s n h hk =>
      ⟨exec_rndf h hk n, exec_rndr h hk n, exec_enc h hk n, ?_⟩⟩
  · obtain ⟨o, ho⟩ := exec_eq_needBoth hi s
    rw [ho]
    exact ⟨fun h => needBoth_emptyState h o, fun h hk => needBoth_emptyKey h hk o⟩
  · rw [exec_dec h hk, decryptCore_eq]
    rfl

/-! ### Expansions (R162) -/

/-- Under the key `K`, on every nonempty State, the command `i` completes with response data 0; it applies
`f` to the State and keeps its length. -/
structure Applies (K : List Byte) (i : Instr) (f : List Byte → List Byte) : Prop where
  exec_eq : ∀ s : State, s.K = K → 0 < s.LEN →
    exec i s = .next (s.endsWith (f s.S) K s.err { err := .ok, data := 0 })
  length_eq : ∀ S, (f S).length = S.length

theorem runInstrs_cons {i : Instr} {t : State} (h : exec i s = .next t) (is : List Instr) :
    runInstrs (i :: is) s = runInstrs is t := by
  simp only [runInstrs, h]

/-- Commands that each apply a function apply these functions one after another, and none fails. -/
theorem runInstrs_applies {is : List Instr} {fs : List (List Byte → List Byte)}
    (his : List.Forall₂ (Applies K) is fs) (hK : s.K = K) (h : 0 < s.LEN) :
    ∃ u, runInstrs is s = .next u ∧ u.S = fs.foldl (fun S f => f S) s.S ∧ u.err = s.err ∧
      u.out = s.out ++ is.map fun _ => { err := .ok, data := 0 } := by
  induction his generalizing s with
  | nil => exact ⟨s, rfl, rfl, rfl, (List.append_nil _).symm⟩
  | @cons i f is fs hi _ ih =>
    have hlen : 0 < (f s.S).length := by rwa [hi.length_eq]
    obtain ⟨u, hu, hS, herr, hout⟩ :=
      ih (s := s.endsWith (f s.S) K s.err { err := .ok, data := 0 }) rfl hlen
    refine ⟨u, (runInstrs_cons (hi.exec_eq s hK h) is).trans hu, hS, herr, ?_⟩
    rw [hout, State.endsWith_out, List.append_assoc]
    rfl

/-- A command and a list of commands that apply the same function to the State. -/
theorem exists_run_of_applies {i : Instr} {f : List Byte → List Byte} {is : List Instr}
    {fs : List (List Byte → List Byte)} (hi : Applies s.K i f)
    (his : List.Forall₂ (Applies s.K) is fs) (hfs : fs.foldl (fun S f => f S) s.S = f s.S)
    (h : 0 < s.LEN) :
    ∃ t u, exec i s = .next t ∧ runInstrs is s = .next u ∧ u.S = t.S ∧ u.err = s.err ∧
      u.out = s.out ++ is.map fun _ => { err := .ok, data := 0 } := by
  obtain ⟨u, hu, hS, herr, hout⟩ := runInstrs_applies his rfl h
  exact ⟨_, u, hi.exec_eq s rfl h, hu, hS.trans hfs, herr, hout⟩

theorem forall₂_applies_map {α : Type} {l : List α} {cmd : α → Instr}
    {f : α → List Byte → List Byte} (h : ∀ a ∈ l, Applies K (cmd a) (f a)) :
    List.Forall₂ (Applies K) (l.map cmd) (l.map f) := by
  rwa [List.forall₂_map_left_iff, List.forall₂_map_right_iff, List.forall₂_same]

theorem applies_move (K : List Byte) (r : Half) (c : Code) :
    Applies K (.move r c) fun S => applyMove S c r.toNat :=
  ⟨fun _ hK h => hK ▸ exec_move h r c, fun _ => applyMove_length _ _ _⟩

theorem applies_rmove (K : List Byte) (r : Half) (c : Code) :
    Applies K (.rmove r c) fun S => reverseMove S c r.toNat :=
  ⟨fun _ hK h => hK ▸ exec_rmove h r c, fun _ => reverseMove_length _ _ _⟩

theorem applies_diff (hk : 0 < K.length) (r : Half) :
    Applies K (.diff r) fun S => diffuse S (roundKey K r.toNat S.length) :=
  ⟨fun _ hK _ => by subst hK; exact exec_diff hk r, fun _ => diffuse_roundKey_length _ _ _⟩

theorem applies_mix (K : List Byte) : Applies K .mix mix :=
  ⟨fun s hK _ => hK ▸ exec_mix s, mix_length⟩

theorem applies_rmix (K : List Byte) : Applies K .rmix reverseMix :=
  ⟨fun s hK _ => hK ▸ exec_rmix s, reverseMix_length⟩

theorem applies_rots (K : List Byte) :
    Applies K .rots fun S => rotateState S (shift K S.length) :=
  ⟨fun _ hK h => hK ▸ exec_rots h, fun _ => rotateState_length _ _⟩

theorem applies_urots (K : List Byte) :
    Applies K .urots fun S => unrotateState S (shift K S.length) :=
  ⟨fun _ hK h => hK ▸ exec_urots h, fun _ => unrotateState_length _ _⟩

theorem applies_rndf (hk : 0 < K.length) (n : Half) :
    Applies K (.rndf n) fun S => roundF K S n.toNat :=
  ⟨fun _ hK h => by subst hK; exact exec_rndf h hk n, fun _ => roundF_length _ _ _⟩

theorem applies_rndr (hk : 0 < K.length) (n : Half) :
    Applies K (.rndr n) fun S => roundR K S n.toNat :=
  ⟨fun _ hK h => by subst hK; exact exec_rndr h hk n, fun _ => roundR_length _ _ _⟩

theorem applies_enc (hk : 0 < K.length) (n : Half) :
    Applies K (.enc n) fun S => encryptCore K S n.toNat :=
  ⟨fun _ hK h => by subst hK; exact exec_enc h hk n, fun _ => encryptCore_length _ _ _⟩

theorem applies_dec (hk : 0 < K.length) (n : Half) :
    Applies K (.dec n) fun S => decryptCore K S n.toNat :=
  ⟨fun _ hK h => by subst hK; exact exec_dec h hk n, fun _ => decryptCore_length _ _ _⟩

theorem expandRndf_applies (hk : 0 < K.length) (n : Half) :
    List.Forall₂ (Applies K) (expandRndf K n)
      ((moveCodes K).map (fun c S => applyMove S c n.toNat) ++
        [fun S => diffuse S (roundKey K n.toNat S.length), mix]) :=
  List.rel_append (forall₂_applies_map fun c _ => applies_move K n c)
    (.cons (applies_diff hk n) (.cons (applies_mix K) .nil))

theorem expandRndr_applies (hk : 0 < K.length) (n : Half) :
    List.Forall₂ (Applies K) (expandRndr K n)
      ([reverseMix, fun S => diffuse S (roundKey K n.toNat S.length)] ++
        ((moveCodes K).map fun c S => reverseMove S c n.toNat).reverse) :=
  List.rel_append (.cons (applies_rmix K) (.cons (applies_diff hk n) .nil))
    (List.rel_reverse (forall₂_applies_map fun c _ => applies_rmove K n c))

/-- A round index of ENC or DEC is below the round count, so the operand field holds it whole. -/
theorem ofNat_toNat_of_mem_range {n : Half} {r : Nat} (hr : r ∈ List.range n.toNat) :
    (BitVec.ofNat 16 r).toNat = r :=
  (BitVec.toNat_ofNat r 16).trans (Nat.mod_eq_of_lt ((List.mem_range.1 hr).trans n.isLt))

theorem expandEnc_applies (hk : 0 < K.length) (n : Half) :
    List.Forall₂ (Applies K) (expandEnc n)
      ((fun S => rotateState S (shift K S.length)) ::
        (List.range n.toNat).map fun r S => roundF K S r) := by
  refine .cons (applies_rots K) (forall₂_applies_map fun r hr => ?_)
  simpa only [ofNat_toNat_of_mem_range hr] using applies_rndf hk (BitVec.ofNat 16 r)

theorem expandDec_applies (hk : 0 < K.length) (n : Half) :
    List.Forall₂ (Applies K) (expandDec n)
      (((List.range n.toNat).map fun r S => roundR K S r).reverse ++
        [fun S => unrotateState S (shift K S.length)]) := by
  refine List.rel_append (List.rel_reverse (forall₂_applies_map fun r hr => ?_))
    (.cons (applies_urots K) .nil)
  simpa only [ofNat_toNat_of_mem_range hr] using applies_rndr hk (BitVec.ofNat 16 r)

/-- Settles O44: each expansion is, command by command, the definition of what its command applies. -/
theorem macroEqualsExpansion : Obligations.MacroEqualsExpansion := by
  refine fun s n h hk => ⟨?_, ?_, ?_, ?_⟩
  · exact exists_run_of_applies (applies_rndf hk n) (expandRndf_applies hk n)
      (by simp [roundF, List.foldl_map]) h
  · exact exists_run_of_applies (applies_rndr hk n) (expandRndr_applies hk n)
      (by simp [roundR, List.foldl_map, ← List.map_reverse]) h
  · exact exists_run_of_applies (applies_enc hk n) (expandEnc_applies hk n)
      (by simp [encryptCore, List.foldl_map]) h
  · exact exists_run_of_applies (applies_dec hk n) (expandDec_applies hk n)
      (by simp [decryptCore, List.foldl_map, ← List.map_reverse]) h

/-! ### What DEC and RNDR undo (R161) -/

/-- Steps undone one by one from the last, where each is undone on the sequences of length `n`. -/
theorem foldl_reverse_foldl {α : Type} {n : Nat} {f g : List Byte → α → List Byte}
    (hlen : ∀ s a, (f s a).length = s.length) (hgf : ∀ s a, s.length = n → g (f s a) a = s)
    (l : List α) {s : List Byte} (hs : s.length = n) :
    l.reverse.foldl g (l.foldl f s) = s := by
  induction l generalizing s with
  | nil => rfl
  | cons a l ih =>
    rw [List.foldl_cons, List.reverse_cons, List.foldl_append, ih ((hlen s a).trans hs)]
    exact hgf s a hs

theorem roundR_roundF {S : List Byte} (h : 2 ≤ S.length) (K : List Byte) (r : Nat) :
    roundR K (roundF K S r) r = S := by
  have hmoves : (moveCodes K).reverse.foldl (fun t c => reverseMove t c r)
      ((moveCodes K).foldl (fun t c => applyMove t c r) S) = S :=
    foldl_reverse_foldl (fun t c => applyMove_length t c r)
      (fun t c ht => reverseMove_applyMove (by omega) c r) _ rfl
  have hlen : ((moveCodes K).foldl (fun t c => applyMove t c r) S).length = S.length :=
    foldl_length (fun t c => applyMove_length t c r) _ S
  rw [roundR, roundF, reverseMix_mix (by simpa [hlen] using Nat.lt_of_succ_le h),
    diffuse_roundKey_length, diffuse_diffuse (by simp), hmoves]

/-- With no rounds, or where every round can be undone, DEC undoes ENC. -/
theorem decryptCore_encryptCore {S : List Byte} {n : Nat} (hpos : 0 < S.length)
    (h : 2 ≤ S.length ∨ n = 0) (K : List Byte) : decryptCore K (encryptCore K S n) n = S := by
  have hrounds : (List.range n).reverse.foldl (roundR K) (encryptCore K S n) =
      rotateState S (shift K S.length) := by
    obtain h | rfl := h
    · exact foldl_reverse_foldl (roundF_length K) (fun t r ht => roundR_roundF (by omega) K r) _
        (rotateState_length S _)
    · rfl
  rw [decryptCore_eq, hrounds, encryptCore_length]
  exact unrotateState_rotateState (Nat.mod_lt _ hpos).le

theorem unrotateState_of_length_one {S : List Byte} (h : S.length = 1) (k : Nat) :
    unrotateState S k = S := by
  obtain ⟨x, rfl⟩ := List.length_eq_one_iff.1 h
  exact List.perm_singleton.1 (unrotateState_perm _ k)

/-- At length 1 a reverse round forgets the byte: RMIX makes it 0, and DIFF then leaves the round key. -/
theorem roundR_of_length_one {S : List Byte} (h : S.length = 1) (K : List Byte) (r : Nat) :
    roundR K S r = [roundKeyByte K r 0] := by
  obtain ⟨x, rfl⟩ := List.length_eq_one_iff.1 h
  have hdiff : diffuse [0] (roundKey K r 1) = [roundKeyByte K r 0] := by
    simp [diffuse, roundKey]
  rw [roundR, reverseMix_singleton, List.length_singleton, hdiff]
  exact List.foldl_fixed' (fun c => reverseMove_of_length_one rfl c r) _

/-- The last reverse round of DEC is round 0. -/
theorem decryptCore_of_length_one {S : List Byte} (h : S.length = 1) {n : Nat} (hn : n ≠ 0)
    (K : List Byte) : decryptCore K S n = [roundKeyByte K 0 0] := by
  obtain ⟨n, rfl⟩ := Nat.exists_eq_succ_of_ne_zero hn
  have hlen : ∀ l : List Nat, (l.foldl (roundR K) S).length = 1 := fun l =>
    (foldl_length (roundR_length K) l S).trans h
  rw [decryptCore_eq, unrotateState_of_length_one (hlen _), List.range_succ_eq_map,
    List.reverse_cons, List.foldl_append]
  exact roundR_of_length_one (hlen _) K 0

/-- One command after another on the same key. -/
theorem exists_exec_exec {i j : Instr} {f g : List Byte → List Byte} (hi : Applies s.K i f)
    (hj : Applies s.K j g) (h : 0 < s.LEN) :
    ∃ t u, exec i s = .next t ∧ exec j t = .next u ∧ u.S = g (f s.S) := by
  have hlen : 0 < (f s.S).length := by rwa [hi.length_eq]
  exact ⟨_, _, hi.exec_eq s rfl h, hj.exec_eq _ rfl hlen, rfl⟩

/-- Settles O45: both commands find the key and the length that the State had. -/
theorem decInvertsEnc : Obligations.DecInvertsEnc := by
  intro s n hk
  refine ⟨fun h => ?_, fun h => ?_, fun h hn => ?_⟩
  · have hpos : 0 < s.LEN := by omega
    have hrounds : 2 ≤ s.S.length ∨ n.toNat = 0 := h.imp id fun ⟨_, hn⟩ => by simp [hn]
    obtain ⟨t, u, ht, hu, hS⟩ := exists_exec_exec (applies_enc hk n) (applies_dec hk n) hpos
    exact ⟨t, u, ht, hu, hS.trans (decryptCore_encryptCore hpos hrounds s.K)⟩
  · have hpos : 0 < s.LEN := by omega
    obtain ⟨t, u, ht, hu, hS⟩ := exists_exec_exec (applies_rndf hk n) (applies_rndr hk n) hpos
    exact ⟨t, u, ht, hu, hS.trans (roundR_roundF h s.K n.toNat)⟩
  · have hpos : 0 < s.LEN := by omega
    have hn' : n.toNat ≠ 0 := fun h0 => hn (BitVec.eq_of_toNat_eq h0)
    obtain ⟨t, u, ht, hu, hS⟩ := exists_exec_exec (applies_enc hk n) (applies_dec hk n) hpos
    have hlen : (encryptCore s.K s.S n.toNat).length = 1 := (encryptCore_length _ _ _).trans h
    exact ⟨t, u, ht, hu, hS.trans (decryptCore_of_length_one hlen hn' s.K)⟩

end Sys2Proof.Machine
end

section
/-! RNDF, RNDR, ENC and DEC followed one micro-operation a step (45_orchestrator.md R158, R159; log entry
5), and the atomic commands they are to the host (20_memory.md R45). -/

namespace Sys2Proof.Machine

variable {s t u : State} {S : List Byte} {m : Macro} {r j k l : Nat}

/-! ### Counted steps -/

theorem run_succ_eq_next_iff (M : Host.Core) (k : Nat) {s u : M.State} :
    M.run (k + 1) s = .next u ↔ ∃ t, M.step s = .next t ∧ M.run k t = .next u := by
  rw [Host.Core.run]
  cases M.step s with
  | next t => simp
  | fault | refused => simp

/-- `k` steps lead from `s` to `t`. -/
def StepsTo (k : Nat) (s t : State) : Prop := Host.Core.run core k s = .next t

theorem stepsTo_zero (s : State) : StepsTo 0 s s := rfl

theorem stepsTo_succ_iff : StepsTo (k + 1) s u ↔ ∃ t, step s = .next t ∧ StepsTo k t u :=
  run_succ_eq_next_iff core k

theorem stepsTo_one (h : step s = .next t) : StepsTo 1 s t :=
  stepsTo_succ_iff.2 ⟨t, h, stepsTo_zero t⟩

theorem StepsTo.trans (h : StepsTo k s t) (h' : StepsTo l t u) : StepsTo (k + l) s u := by
  induction k generalizing s with
  | zero =>
    obtain rfl : s = t := Host.Outcome.next.inj h
    rwa [Nat.zero_add]
  | succ k ih =>
    obtain ⟨s', hs, h⟩ := stepsTo_succ_iff.1 h
    rw [Nat.succ_add]
    exact stepsTo_succ_iff.2 ⟨s', hs, ih h⟩

/-! ### A command in progress, with no host events to come -/

/-- A command in progress from `s`: what the State buffer holds so far, and the place in the sequence. -/
def State.inProgress (s : State) (S : List Byte) (m : Macro) (phase : Phase) (r j : Nat) : State :=
  (s.withS S).withSeq (.running m phase r j)

theorem stepsTo_of_microStep {phase : Phase} (hp : s.port = [])
    (h : microStep (s.inProgress S m phase r j) = .next t) :
    StepsTo 1 (s.inProgress S m phase r j) t :=
  stepsTo_one ((step_of_port_nil (s := s.inProgress S m phase r j) hp).trans h)

theorem step_of_port_sequenced {cw : CmdWord} {rest : List PortEvent} (hs : s.seq = .idle)
    (hp : s.port = .sequenced cw :: rest) : step s = startCommand cw (s.withPort rest) := by
  simp only [step, portStep, hp, if_pos hs]

theorem startCommand_of_firstMicroOp {cw : CmdWord} {i : Instr} {q : Sequencer}
    (hd : decode cw = .ok i) (hq : firstMicroOp i = some q) :
    startCommand cw s = needBoth s (.next (s.withSeq q)) := by
  simp only [startCommand, hd, hq]

/-- A command of the sequenced view passes its checks, starts, and goes through its sequence. -/
theorem stepsTo_of_sequenced {cw : CmdWord} {i : Instr} {phase : Phase} (hs : s.seq = .idle)
    (hp : s.port = [.sequenced cw]) (h : 0 < s.LEN) (hk : 0 < s.KLEN) (hd : decode cw = .ok i)
    (hq : firstMicroOp i = some (.running m phase r 0))
    (hrun : StepsTo k ((s.withPort []).inProgress s.S m phase r 0) t) : StepsTo (1 + k) s t := by
  have hstart : step s = .next ((s.withPort []).inProgress s.S m phase r 0) := by
    rw [step_of_port_sequenced hs hp, startCommand_of_firstMicroOp hd hq,
      needBoth_pos (s := s.withPort []) h hk]
    rfl
  exact (stepsTo_one hstart).trans hrun

/-! ### The micro-operations -/

theorem microStep_rot (hS : 0 < S.length) :
    microStep (s.inProgress S m .rot r j) =
      .next (afterRot (s.inProgress (rotateState S (shift s.K S.length)) m .rot r j) m) :=
  needState_pos (s := s.inProgress S m .rot r j) hS _

theorem microStep_move {c : Code} (hS : 0 < S.length) (hc : (moveCodes s.K)[j]? = some c) :
    microStep (s.inProgress S m .move r j) =
      .next (afterMove (s.inProgress (applyMove S c r) m .move r j) m r j) :=
  (microStep_of_moveCode (s := s.inProgress S m .move r j) rfl (.inl rfl) hc).trans <|
    (exec_decodeMoveCode c _).trans (execMoveCode_move c hS rfl)

theorem microStep_diff (hk : 0 < s.KLEN) :
    microStep (s.inProgress S m .diff r j) =
      .next (s.inProgress (diffuse S (roundKey s.K r S.length)) m .mix r 0) :=
  needKey_pos (s := s.inProgress S m .diff r j) hk _

theorem microStep_mix :
    microStep (s.inProgress S m .mix r j) =
      .next (afterMix (s.inProgress (mix S) m .mix r j) m r) := rfl

theorem microStep_rmix :
    microStep (s.inProgress S m .rmix r j) = .next (s.inProgress (reverseMix S) m .rdiff r 0) := rfl

theorem microStep_rdiff (hk : 0 < s.KLEN) :
    microStep (s.inProgress S m .rdiff r j) =
      .next (s.inProgress (diffuse S (roundKey s.K r S.length)) m .rmove r (nmc s.K - 1)) :=
  needKey_pos (s := s.inProgress S m .rdiff r j) hk _

theorem microStep_rmove {c : Code} (hS : 0 < S.length) (hc : (moveCodes s.K)[j]? = some c) :
    microStep (s.inProgress S m .rmove r j) =
      .next (afterRmove (s.inProgress (reverseMove S c r) m .rmove r j) m r j) :=
  (microStep_of_moveCode (s := s.inProgress S m .rmove r j) rfl (.inr rfl) hc).trans <|
    (exec_decodeMoveCode c _).trans (execMoveCode_rmove c hS rfl)

theorem microStep_unrot (hS : 0 < S.length) :
    microStep (s.inProgress S m .unrot r j) =
      .next ((s.withS (unrotateState S (shift s.K S.length))).respond 0) :=
  needState_pos (s := s.inProgress S m .unrot r j) hS _

/-! ### Forward rounds (R158) -/

/-- The first `j` moves of a forward round. -/
def movedBy (K : List Byte) (r : Nat) (S : List Byte) (j : Nat) : List Byte :=
  ((moveCodes K).take j).foldl (fun T c => applyMove T c r) S

@[simp] theorem movedBy_length (K : List Byte) (r : Nat) (S : List Byte) (j : Nat) :
    (movedBy K r S j).length = S.length :=
  foldl_length (fun T c => applyMove_length T c r) _ S

theorem movedBy_succ {K : List Byte} {c : Code} (hc : (moveCodes K)[j]? = some c) (r : Nat)
    (S : List Byte) : movedBy K r S (j + 1) = applyMove (movedBy K r S j) c r := by
  simp only [movedBy, List.take_add_one, hc, Option.toList_some, List.foldl_append, List.foldl_cons,
    List.foldl_nil]

theorem roundF_eq_movedBy (K S : List Byte) (r : Nat) :
    roundF K S r =
      mix (diffuse (movedBy K r S (nmc K)) (roundKey K r (movedBy K r S (nmc K)).length)) := by
  rw [movedBy, List.take_of_length_le (moveCodes_length K).le]
  rfl

theorem exists_moveCode {K : List Byte} (hj : j < nmc K) : ∃ c, (moveCodes K)[j]? = some c :=
  ⟨_, List.getElem?_eq_getElem (by rwa [moveCodes_length])⟩

theorem afterMove_of_lt (h : j + 1 < nmc s.K) :
    afterMove (s.inProgress S m .move r j) m r j = s.inProgress S m .move r (j + 1) := if_pos h

theorem afterMove_of_last (h : j + 1 = nmc s.K) :
    afterMove (s.inProgress S m .move r j) m r j = s.inProgress S m .diff r 0 := if_neg h.not_lt

/-- A move brings the State to what the first `j + 1` moves make of it. -/
theorem stepsTo_move (hp : s.port = []) (hS : 0 < S.length) (hj : j < nmc s.K) :
    StepsTo 1 (s.inProgress (movedBy s.K r S j) m .move r j)
      (afterMove (s.inProgress (movedBy s.K r S (j + 1)) m .move r j) m r j) := by
  obtain ⟨c, hc⟩ := exists_moveCode hj
  rw [movedBy_succ hc]
  exact stepsTo_of_microStep hp (microStep_move (by rwa [movedBy_length]) hc)

theorem stepsTo_moves (hp : s.port = []) (hS : 0 < S.length) (hj : j < nmc s.K) :
    StepsTo j (s.inProgress S m .move r 0) (s.inProgress (movedBy s.K r S j) m .move r j) := by
  induction j with
  | zero => exact stepsTo_zero _
  | succ j ih =>
    have hstep := stepsTo_move (m := m) (r := r) hp hS (Nat.lt_of_succ_lt hj)
    rw [afterMove_of_lt hj] at hstep
    exact (ih (Nat.lt_of_succ_lt hj)).trans hstep

theorem stepsTo_allMoves (hp : s.port = []) (hS : 0 < S.length) (hk : 0 < s.KLEN) :
    StepsTo (nmc s.K) (s.inProgress S m .move r 0)
      (s.inProgress (movedBy s.K r S (nmc s.K)) m .diff r 0) := by
  obtain ⟨j, hj⟩ := Nat.exists_eq_add_one_of_ne_zero (nmc_pos hk).ne'
  have hstep := stepsTo_move (m := m) (r := r) (j := j) hp hS (by omega)
  rw [afterMove_of_last hj.symm] at hstep
  rw [hj]
  exact (stepsTo_moves hp hS (by omega)).trans hstep

/-- A forward round, up to what follows its `MIX`. -/
theorem stepsTo_roundF (hp : s.port = []) (hS : 0 < S.length) (hk : 0 < s.KLEN) :
    StepsTo (nmc s.K + 2) (s.inProgress S m .move r 0)
      (afterMix (s.inProgress (roundF s.K S r) m .mix r 0) m r) := by
  rw [roundF_eq_movedBy]
  exact ((stepsTo_allMoves hp hS hk).trans (stepsTo_of_microStep hp (microStep_diff hk))).trans
    (stepsTo_of_microStep hp microStep_mix)

theorem afterMix_enc_of_lt {n : Nat} (h : r + 1 < n) :
    afterMix (s.inProgress S (.enc n) .mix r j) (.enc n) r =
      s.inProgress S (.enc n) .move (r + 1) 0 := if_pos h

theorem afterMix_enc_of_last {n : Nat} (h : r + 1 = n) :
    afterMix (s.inProgress S (.enc n) .mix r j) (.enc n) r = (s.withS S).respond 0 :=
  if_neg h.not_lt

theorem foldl_range_succ (f : List Byte → Nat → List Byte) (S : List Byte) (n : Nat) :
    (List.range (n + 1)).foldl f S = f ((List.range n).foldl f S) n := by
  rw [List.range_succ, List.foldl_append]
  rfl

/-- A round of ENC brings the State to what the first `r + 1` rounds make of it. -/
theorem stepsTo_enc_round (hp : s.port = []) (hS : 0 < S.length) (hk : 0 < s.KLEN) (n : Nat) :
    StepsTo (nmc s.K + 2) (s.inProgress ((List.range r).foldl (roundF s.K) S) (.enc n) .move r 0)
      (afterMix (s.inProgress ((List.range (r + 1)).foldl (roundF s.K) S) (.enc n) .mix r 0)
        (.enc n) r) := by
  rw [foldl_range_succ]
  exact stepsTo_roundF hp (by rwa [foldl_length (roundF_length s.K)]) hk

theorem stepsTo_enc_rounds (hp : s.port = []) (hS : 0 < S.length) (hk : 0 < s.KLEN) {n : Nat}
    (hr : r < n) : StepsTo (r * (nmc s.K + 2)) (s.inProgress S (.enc n) .move 0 0)
      (s.inProgress ((List.range r).foldl (roundF s.K) S) (.enc n) .move r 0) := by
  induction r with
  | zero =>
    rw [Nat.zero_mul]
    exact stepsTo_zero _
  | succ r ih =>
    have hround := stepsTo_enc_round (r := r) hp hS hk n
    rw [afterMix_enc_of_lt hr] at hround
    rw [Nat.succ_mul]
    exact (ih (Nat.lt_of_succ_lt hr)).trans hround

/-- The micro-operations of ENC: `ROT` and the rounds. -/
theorem stepsTo_enc (hp : s.port = []) (hS : 0 < S.length) (hk : 0 < s.KLEN) (n : Nat) :
    StepsTo (1 + n * (nmc s.K + 2)) (s.inProgress S (.enc n) .rot 0 0)
      ((s.withS (encryptCore s.K S n)).respond 0) := by
  have hrot := stepsTo_of_microStep hp (microStep_rot (m := .enc n) (r := 0) (j := 0) hS)
  cases n with
  | zero =>
    rw [Nat.zero_mul]
    exact hrot
  | succ r =>
    have hS' : 0 < (rotateState S (shift s.K S.length)).length := by rwa [rotateState_length]
    have hlast := stepsTo_enc_round (r := r) hp hS' hk (r + 1)
    rw [afterMix_enc_of_last rfl] at hlast
    rw [Nat.succ_mul]
    exact hrot.trans ((stepsTo_enc_rounds hp hS' hk r.lt_succ_self).trans hlast)

/-- Settles O46: after the start, the micro-operations of ENC and of RNDF end in the response of the atomic
command. -/
theorem forwardSequenceRefinesCommand : Obligations.ForwardSequenceRefinesCommand := by
  intro s n cw hs h hk hp
  refine ⟨fun hd => ?_, fun hd => ?_⟩
  · exact ⟨_, exec_enc (s := s.withPort []) h hk n,
      stepsTo_of_sequenced hs hp h hk hd rfl (stepsTo_enc (s := s.withPort []) rfl h hk n.toNat)⟩
  · exact ⟨_, exec_rndf (s := s.withPort []) h hk n,
      stepsTo_of_sequenced hs hp h hk hd rfl (stepsTo_roundF (s := s.withPort []) rfl h hk)⟩

/-! ### Reverse rounds (R159) -/

/-- The reverse moves with the first `j` codes, the last of them first. -/
def unmovedBy (K : List Byte) (r j : Nat) (S : List Byte) : List Byte :=
  ((moveCodes K).take j).reverse.foldl (fun T c => reverseMove T c r) S

theorem unmovedBy_succ {K : List Byte} {c : Code} (hc : (moveCodes K)[j]? = some c) (r : Nat)
    (S : List Byte) : unmovedBy K r (j + 1) S = unmovedBy K r j (reverseMove S c r) := by
  simp only [unmovedBy, List.take_add_one, hc, Option.toList_some, List.reverse_append,
    List.reverse_singleton, List.foldl_append, List.foldl_cons, List.foldl_nil]

theorem roundR_eq_unmovedBy (K S : List Byte) (r : Nat) :
    roundR K S r =
      unmovedBy K r (nmc K) (diffuse (reverseMix S) (roundKey K r (reverseMix S).length)) := by
  rw [unmovedBy, List.take_of_length_le (moveCodes_length K).le]
  rfl

/-- The moves of a reverse round from index `j` down, up to what follows the last of them. -/
theorem stepsTo_rmoves (hp : s.port = []) (hS : 0 < S.length) (hj : j < nmc s.K) :
    StepsTo (j + 1) (s.inProgress S m .rmove r j)
      (afterRmove (s.inProgress (unmovedBy s.K r (j + 1) S) m .rmove r 0) m r 0) := by
  induction j generalizing S with
  | zero =>
    obtain ⟨c, hc⟩ := exists_moveCode hj
    rw [unmovedBy_succ hc]
    exact stepsTo_of_microStep hp (microStep_rmove hS hc)
  | succ j ih =>
    obtain ⟨c, hc⟩ := exists_moveCode hj
    rw [unmovedBy_succ hc, Nat.add_comm]
    exact (stepsTo_of_microStep hp (microStep_rmove hS hc)).trans
      (ih (S := reverseMove S c r) (by rwa [reverseMove_length]) (Nat.lt_of_succ_lt hj))

/-- A reverse round, up to what follows its last move. -/
theorem stepsTo_roundR (hp : s.port = []) (hS : 0 < S.length) (hk : 0 < s.KLEN) :
    StepsTo (nmc s.K + 2) (s.inProgress S m .rmix r j)
      (afterRmove (s.inProgress (roundR s.K S r) m .rmove r 0) m r 0) := by
  have hlast : nmc s.K - 1 + 1 = nmc s.K := Nat.sub_add_cancel (nmc_pos hk)
  have hmoves := stepsTo_rmoves (m := m) (r := r) hp
    (S := diffuse (reverseMix S) (roundKey s.K r (reverseMix S).length))
    (by simpa using hS) (Nat.sub_one_lt (nmc_pos hk).ne')
  rw [hlast, ← roundR_eq_unmovedBy] at hmoves
  rw [Nat.add_comm]
  exact ((stepsTo_of_microStep hp microStep_rmix).trans
    (stepsTo_of_microStep hp (microStep_rdiff hk))).trans hmoves

theorem foldl_reverse_range_succ (f : List Byte → Nat → List Byte) (S : List Byte) (n : Nat) :
    (List.range (n + 1)).reverse.foldl f S = (List.range n).reverse.foldl f (f S n) := by
  rw [List.range_succ, List.reverse_append]
  rfl

/-- The rounds of DEC from round `r` down. -/
theorem stepsTo_dec_rounds (hp : s.port = []) (hS : 0 < S.length) (hk : 0 < s.KLEN) (n : Nat) :
    StepsTo ((r + 1) * (nmc s.K + 2)) (s.inProgress S (.dec n) .rmix r 0)
      (s.inProgress ((List.range (r + 1)).reverse.foldl (roundR s.K) S) (.dec n) .unrot 0 0) := by
  induction r generalizing S with
  | zero =>
    rw [Nat.zero_add, Nat.one_mul]
    exact stepsTo_roundR hp hS hk
  | succ r ih =>
    rw [foldl_reverse_range_succ, Nat.succ_mul, Nat.add_comm]
    exact (stepsTo_roundR hp hS hk).trans (ih (S := roundR s.K S (r + 1)) (by rwa [roundR_length]))

theorem stepsTo_unrot (hp : s.port = []) (hS : 0 < S.length) :
    StepsTo 1 (s.inProgress S m .unrot r j)
      ((s.withS (unrotateState S (shift s.K S.length))).respond 0) :=
  stepsTo_of_microStep hp (microStep_unrot hS)

/-- Settles O47: the rounds of DEC come before its `UNROT`, and with no rounds it starts there. -/
theorem reverseSequenceRefinesCommand : Obligations.ReverseSequenceRefinesCommand := by
  intro s n cw hs h hk hp
  refine ⟨fun hd => ?_, fun hd => ?_⟩
  · refine ⟨_, exec_dec (s := s.withPort []) h hk n, ?_⟩
    cases hn : n.toNat with
    | zero =>
      have hq : firstMicroOp (.dec n) = some (.running (.dec 0) .unrot 0 0) := if_pos hn
      rw [Nat.zero_mul]
      exact stepsTo_of_sequenced hs hp h hk hd hq (stepsTo_unrot rfl h)
    | succ r =>
      have hq : firstMicroOp (.dec n) = some (.running (.dec (r + 1)) .rmix r 0) := by
        simp only [firstMicroOp, hn]
        rfl
      have hrounds := stepsTo_dec_rounds (s := s.withPort []) (r := r) rfl h hk (r + 1)
      rw [Nat.add_comm 1 (_ * _)]
      refine stepsTo_of_sequenced hs hp h hk hd hq (hrounds.trans (stepsTo_unrot rfl ?_))
      rwa [foldl_length (roundR_length _)]
  · exact ⟨_, exec_rndr (s := s.withPort []) h hk n,
      stepsTo_of_sequenced hs hp h hk hd rfl (stepsTo_roundR (s := s.withPort []) rfl h hk)⟩

end Sys2Proof.Machine
end

section
/-! The hex codec of the host adapter (46_host_codec.md R172, R173): digits read back, and the inputs that
are malformed. -/

namespace Sys2Proof.Machine

/-! ### Round trip -/

theorem highNibble_append_lowNibble (v : Byte) : highNibble v ++ lowNibble v = v := by
  revert v; decide

theorem bytesToHex_cons (v : Byte) (bytes : List Byte) :
    bytesToHex (v :: bytes) =
      hexDigit (highNibble v) :: hexDigit (lowNibble v) :: bytesToHex bytes := rfl

@[simp] theorem bytesToHex_length (bytes : List Byte) :
    (bytesToHex bytes).length = 2 * bytes.length := by
  simp [bytesToHex, Nat.mul_comm]

@[simp] theorem hexToBytes_bytesToHex (bytes : List Byte) :
    hexToBytes (bytesToHex bytes) = .ok bytes := by
  induction bytes with
  | nil => rfl
  | cons v bytes ih =>
    simp only [bytesToHex_cons, hexToBytes, hexValue_hexDigit, ih, highNibble_append_lowNibble]

/-! ### Malformed input -/

/-- `hexToBytes` has one way to fail. -/
theorem error_eq_malformedHex {hex : List Char} {e : HostError} (h : hexToBytes hex = .error e) :
    e = .malformedHex := by
  revert h
  fun_cases hexToBytes hex <;> simp +contextual [eq_comm]

/-- Two digits fail by themselves, or what follows them fails. -/
theorem hexToBytes_cons_cons_eq_error_iff (h l : Char) (rest : List Char) :
    hexToBytes (h :: l :: rest) = .error .malformedHex ↔
      hexValue h = none ∨ hexValue l = none ∨ hexToBytes rest = .error .malformedHex := by
  cases hrest : hexToBytes rest with
  | error e => simp [hexToBytes, hrest, error_eq_malformedHex hrest]
  | ok bytes =>
    cases hh : hexValue h <;> cases hl : hexValue l <;> simp [hexToBytes, hrest, hh, hl]

theorem hexToBytes_eq_error_iff (hex : List Char) :
    hexToBytes hex = .error .malformedHex ↔
      hex.length % 2 = 1 ∨ ∃ c ∈ hex, hexValue c = none := by
  match hex with
  | [] => simp [hexToBytes]
  | [_] => simp [hexToBytes]
  | h :: l :: rest =>
    rw [hexToBytes_cons_cons_eq_error_iff, hexToBytes_eq_error_iff rest, List.exists_mem_cons_iff,
      List.exists_mem_cons_iff, List.length_cons, List.length_cons, Nat.add_assoc, Nat.add_mod_right]
    tauto

/-- Settles O59, by induction on the bytes and, two digits at a time, on the hex string. -/
theorem hexCodecRoundTrip : Obligations.HexCodecRoundTrip :=
  ⟨fun bytes => ⟨hexToBytes_bytesToHex bytes, bytesToHex_length bytes⟩, hexToBytes_eq_error_iff⟩

end Sys2Proof.Machine
end

section
/-! The calls of the host adapter (46_host_codec.md R175, R177), run on the machine command by command:
what a list of command words answers, a whole call, and a decrypt call after an encrypt call. -/

namespace Sys2Proof.Machine

variable {cap : Capacity} {S S' S'' K K' K'' k p : List Byte} {cws cws' : List CmdWord}
  {ds ds' : List Half} {s t u : State} {i : Instr} {cw : CmdWord} {d : Half}

/-! ### Command words answered one after another -/

theorem decode_of_encode (h : encode i = .command cw) : decode cw = .ok i := by
  simpa only [h, decodeEncoding] using decodeOfEncodeIsIdentity i

/-- A command of a call that completes. -/
theorem transact_of_exec {e : ErrCode} (hs : s.seq = .idle) (hcw : encode i = .command cw)
    (h : exec i s = .next (s.endsWith S K e { err := .ok, data := d })) :
    transact s cw = .ok (s.endsWith S K e { err := .ok, data := d }, d) := by
  have hstep : step (s.withPort (.command cw :: s.port)) = exec i s :=
    (step_of_port_command (s := s.withPort (.command cw :: s.port)) hs rfl).trans
      (runCommand_of_decode (decode_of_encode hcw))
  simp only [transact, hstep, h, State.endsWith_out, List.getLast?_concat, if_true]

theorem transactAll_cons_eq_ok_iff :
    transactAll s (cw :: cws) = .ok (u, ds) ↔
      ∃ t d ds', transact s cw = .ok (t, d) ∧ transactAll t cws = .ok (u, ds') ∧ d :: ds' = ds := by
  rw [transactAll]
  cases transact s cw with
  | error => simp
  | ok r =>
    obtain ⟨t, d⟩ := r
    cases h : transactAll t cws <;> simp [h, Prod.ext_iff, and_assoc]

theorem transactAll_append (h : transactAll s cws = .ok (t, ds))
    (h' : transactAll t cws' = .ok (u, ds')) : transactAll s (cws ++ cws') = .ok (u, ds ++ ds') := by
  induction cws generalizing s ds with
  | nil =>
    cases h
    exact h'
  | cons cw cws ih =>
    obtain ⟨v, d, _, hcw, hrest, rfl⟩ := transactAll_cons_eq_ok_iff.1 h
    exact transactAll_cons_eq_ok_iff.2 ⟨v, d, _, hcw, ih hrest, rfl⟩

/-- An idle engine with these capacities and buffers, whatever its `ERR`, port and responses are. -/
structure State.Holds (s : State) (cap : Capacity) (S K : List Byte) : Prop where
  seq_eq : s.seq = .idle
  cap_eq : s.cap = cap
  S_eq : s.S = S
  K_eq : s.K = K

/-- On every engine that holds `S` and `K`, the command words are answered without error with the data
`ds`, and the engine then holds `S'` and `K'`. -/
def Answers (cap : Capacity) (S K : List Byte) (cws : List CmdWord) (ds : List Half)
    (S' K' : List Byte) : Prop :=
  ∀ s : State, s.Holds cap S K → ∃ t, transactAll s cws = .ok (t, ds) ∧ t.Holds cap S' K'

theorem Answers.nil : Answers cap S K [] [] S K := fun s hs => ⟨s, rfl, hs⟩

theorem Answers.append (h : Answers cap S K cws ds S' K') (h' : Answers cap S' K' cws' ds' S'' K'') :
    Answers cap S K (cws ++ cws') (ds ++ ds') S'' K'' := by
  intro s hs
  obtain ⟨t, hst, ht⟩ := h s hs
  obtain ⟨u, htu, hu⟩ := h' t ht
  exact ⟨u, transactAll_append hst htu, hu⟩

/-- One command that completes. -/
theorem Answers.single (hcw : encode i = .command cw)
    (h : ∀ s : State, s.Holds cap S K →
      exec i s = .next (s.endsWith S' K' s.err { err := .ok, data := d })) :
    Answers cap S K (wordOf i) [d] S' K' := by
  intro s hs
  have hword : wordOf i = [cw] := by simp only [wordOf, hcw]
  refine ⟨s.endsWith S' K' s.err { err := .ok, data := d }, ?_, ⟨rfl, hs.cap_eq, rfl, rfl⟩⟩
  rw [hword, transactAll_cons_eq_ok_iff]
  exact ⟨_, d, [], transact_of_exec hs.seq_eq hcw (h s hs), rfl, rfl⟩

/-- Commands that each leave the buffers as they are. -/
theorem Answers.map {α : Type} {l : List α} {cmd : α → Instr} {data : α → Half}
    (h : ∀ a ∈ l, Answers cap S K (wordOf (cmd a)) [data a] S K) :
    Answers cap S K ((l.map cmd).flatMap wordOf) (l.map data) S K := by
  induction l with
  | nil => exact .nil
  | cons a l ih =>
    obtain ⟨ha, hl⟩ := List.forall_mem_cons.1 h
    exact ha.append (ih hl)

/-! ### The commands of a call (R175, R177) -/

theorem answers_clrs : Answers cap S K (wordOf .clrs) [0] [] K :=
  .single rfl fun s hs => hs.K_eq ▸ complete_eq (s.withS []) 0

theorem answers_clrk : Answers cap S K (wordOf .clrk) [0] S [] :=
  .single rfl fun s hs => hs.S_eq ▸ complete_eq (s.withK []) 0

theorem answers_pushs (v : Byte) (h : S.length < cap.nmax) :
    Answers cap S K (wordOf (.pushs v)) [0] (S ++ [v]) K := by
  refine .single rfl fun s hs => ?_
  obtain ⟨_, rfl, rfl, rfl⟩ := hs
  exact execPushs_of_room v h.ne

theorem answers_pushk (v : Byte) (h : K.length < cap.kmax) :
    Answers cap S K (wordOf (.pushk v)) [0] S (K ++ [v]) := by
  refine .single rfl fun s hs => ?_
  obtain ⟨_, rfl, rfl, rfl⟩ := hs
  exact execPushk_of_room v h.ne

theorem answers_rds {a : Half} (h : a.toNat < S.length) :
    Answers cap S K (wordOf (.rds a)) [zextByte S[a.toNat]] S K := by
  refine .single rfl fun s hs => ?_
  obtain ⟨_, rfl, rfl, rfl⟩ := hs
  exact execRds_of_lt h

/-- A command that applies `f` to every nonempty State under the key `K`. -/
theorem Applies.answers {f : List Byte → List Byte} (hi : Applies K i f)
    (hcw : encode i = .command cw) (hS : 0 < S.length) : Answers cap S K (wordOf i) [0] (f S) K := by
  refine .single hcw fun s hs => ?_
  obtain ⟨_, -, rfl, rfl⟩ := hs
  exact hi.exec_eq s rfl hS

/-- Commands that each append a byte to a buffer with room for `m`; `S` and `K` say which buffer it is. -/
theorem Answers.mapPush {push : Byte → Instr} {S K : List Byte → List Byte} {m : Nat}
    (h : ∀ B v, B.length < m →
      Answers cap (S B) (K B) (wordOf (push v)) [0] (S (B ++ [v])) (K (B ++ [v])))
    (l : List Byte) {B : List Byte} (hl : B.length + l.length ≤ m) :
    Answers cap (S B) (K B) ((l.map push).flatMap wordOf) (l.map fun _ => 0)
      (S (B ++ l)) (K (B ++ l)) := by
  induction l generalizing B with
  | nil =>
    rw [List.append_nil]
    exact .nil
  | cons v l ih =>
    rw [List.length_cons] at hl
    have hrest : (B ++ [v]).length + l.length ≤ m := by
      rw [List.length_append, List.length_singleton]
      omega
    rw [List.append_cons]
    exact (h B v (by omega)).append (ih hrest)

/-- Loading replaces what the engine held before. -/
theorem exists_answers_loadCommands (hk : k.length ≤ cap.kmax) (hp : p.length ≤ cap.nmax) :
    ∃ ds, Answers cap S K (loadCommands k p) ds p k := by
  have hpushk := Answers.mapPush (cap := cap) (S := fun _ => S) (K := id)
    (fun _ v hB => answers_pushk v hB) k (B := []) (by simpa using hk)
  have hpushs := Answers.mapPush (cap := cap) (S := id) (K := fun _ => k)
    (fun _ v hB => answers_pushs v hB) p (B := []) (by simpa using hp)
  rw [loadCommands, List.flatMap_append]
  exact ⟨_, (answers_clrk.append hpushk).append (answers_clrs.append hpushs)⟩

/-- The State is shorter than `2 ^ 16`, so each of its indices fits the operand of RDS. -/
theorem answers_readCommands (h : S.length ≤ 65535) :
    Answers cap S K (readCommands S.length) (S.map zextByte) S K := by
  have hdata : S.map zextByte = (List.range S.length).map fun n => zextByte (S.getD n 0) := by
    refine List.ext_getElem (by simp) fun n hn _ => ?_
    rw [List.length_map] at hn
    simp [hn]
  rw [hdata]
  refine .map fun n hn => ?_
  have hn := List.mem_range.1 hn
  have hindex : (BitVec.ofNat 16 n).toNat = n := dataOfNat_toNat (by omega)
  rw [List.getD_eq_getElem _ _ hn]
  simpa only [hindex] using answers_rds (a := BitVec.ofNat 16 n) (by rwa [hindex])

theorem answers_clearCommands : Answers cap S K clearCommands [0, 0] [] [] :=
  answers_clrs.append answers_clrk

theorem extractLsb'_zextByte (v : Byte) : (zextByte v).extractLsb' 0 8 = v := by
  revert v; decide

/-! ### Whole calls -/

/-- A call whose command applies `f` gives `f` of what it loaded and leaves the engine idle. -/
theorem exists_runCall {f : List Byte → List Byte} (hi : Applies k i f)
    (hcw : encode i = .command cw) (hs : s.seq = .idle) (hcap : s.cap.nmax ≤ 65535)
    (hpos : 0 < p.length) (hp : p.length ≤ s.cap.nmax) (hk : k.length ≤ s.cap.kmax) :
    ∃ t, runCall s k p i = .ok (t, f p) ∧ t.seq = .idle ∧ t.cap = s.cap := by
  have hlen : (f p).length = p.length := hi.length_eq p
  obtain ⟨ds, hload⟩ := exists_answers_loadCommands (S := s.S) (K := s.K) hk hp
  obtain ⟨t, hst, ht⟩ := (hload.append (hi.answers hcw hpos)) s ⟨hs, rfl, rfl, rfl⟩
  obtain ⟨u, htu, hu⟩ := answers_readCommands (by omega) t ht
  obtain ⟨v, huv, hv⟩ := answers_clearCommands u hu
  refine ⟨v, ?_, hv.seq_eq, hv.cap_eq⟩
  rw [hlen] at htu
  simp only [runCall, hst, htu, huv, List.map_map, Function.comp_def, extractLsb'_zextByte, List.map_id']

/-- A call of DEC gives back what a call of ENC was given. -/
theorem exists_runCall_enc_dec {n : Half} (hs : s.seq = .idle) (hcap : s.cap.nmax ≤ 65535)
    (hpos : 0 < p.length) (hp : p.length ≤ s.cap.nmax) (hkpos : 0 < k.length)
    (hk : k.length ≤ s.cap.kmax) (hn : 2 ≤ p.length ∨ n.toNat = 0) :
    ∃ t u c, runCall s k p (.enc n) = .ok (t, c) ∧ t.cap = s.cap ∧ c.length = p.length ∧
      runCall t k c (.dec n) = .ok (u, p) := by
  have hlen : (encryptCore k p n.toNat).length = p.length := encryptCore_length k p n.toNat
  obtain ⟨t, henc, ht, htcap⟩ := exists_runCall (applies_enc hkpos n) rfl hs hcap hpos hp hk
  obtain ⟨u, hdec, -, -⟩ := exists_runCall (p := encryptCore k p n.toNat) (applies_dec hkpos n) rfl ht
    (htcap ▸ hcap) (hlen ▸ hpos) (by rwa [htcap, hlen]) (htcap ▸ hk)
  rw [decryptCore_encryptCore hpos hn] at hdec
  exact ⟨t, u, _, henc, htcap, hlen, hdec⟩

/-! ### Characters and bytes (R170, R171, R174) -/

variable {text key : List Nat} {rounds : Nat} {bytes : List Byte}

theorem textToBytes_of_lt (policy : WideCharPolicy) (h : ∀ c ∈ text, c < 256) :
    textToBytes policy text = .ok (text.map (BitVec.ofNat 8)) := by
  cases policy with
  | refuse => exact if_pos (by simpa using h)
  | truncate => rfl

theorem keyToBytes_of_lt (h : ∀ c ∈ key, c < 256) :
    keyToBytes key = .ok (key.map (BitVec.ofNat 8)) := if_pos (by simpa using h)

theorem bytesToText_map_ofNat (h : ∀ c ∈ text, c < 256) :
    bytesToText (text.map (BitVec.ofNat 8)) = text := by
  rw [bytesToText, List.map_map]
  exact (List.map_congr_left fun c hc =>
    (BitVec.toNat_ofNat c 8).trans (Nat.mod_eq_of_lt (h c hc))).trans (List.map_id text)

theorem checkCall_eq_ok {n m : Nat} (hr : rounds ≤ 65535) (hn : n ≤ cap.nmax) (hm : m ≤ cap.kmax)
    (hpos : 0 < n) : checkCall cap n m rounds = .ok () := by
  have hneg : ¬ (rounds : Int) < 0 := by omega
  have hcap : ¬ ((rounds : Int) > 65535 ∨ n > cap.nmax ∨ m > cap.kmax) := by omega
  rw [checkCall, if_neg hneg, if_neg hcap, if_neg hpos.ne']

theorem ofInt_toNat (h : rounds ≤ 65535) : (BitVec.ofInt 16 rounds).toNat = rounds := by
  rw [BitVec.ofInt_natCast]
  exact (BitVec.toNat_ofNat rounds 16).trans (Nat.mod_eq_of_lt (by omega))

theorem hostEncrypt_of_runCall (policy : WideCharPolicy)
    (hcheck : checkCall s.cap text.length key.length rounds = .ok ())
    (htext : ∀ c ∈ text, c < 256) (hkey : ∀ c ∈ key, c < 256)
    (hrun : runCall s (key.map (BitVec.ofNat 8)) (text.map (BitVec.ofNat 8))
      (.enc (BitVec.ofInt 16 rounds)) = .ok (t, bytes)) :
    hostEncrypt policy s text key rounds = .ok (t, bytesToHex bytes) := by
  simp only [hostEncrypt, hcheck, textToBytes_of_lt policy htext, keyToBytes_of_lt hkey, hrun]

theorem hostDecrypt_of_runCall {c : List Byte}
    (hcheck : checkCall s.cap c.length key.length rounds = .ok ())
    (hkey : ∀ c ∈ key, c < 256)
    (hrun : runCall s (key.map (BitVec.ofNat 8)) c (.dec (BitVec.ofInt 16 rounds)) =
      .ok (t, bytes)) :
    hostDecrypt s (bytesToHex c) key rounds = .ok (t, bytesToText bytes) := by
  simp only [hostDecrypt, hexToBytes_bytesToHex, hcheck, keyToBytes_of_lt hkey, hrun]

/-- Settles O60: both calls run to their end, the second on the bytes that the first gave, and DEC undoes
ENC on them. -/
theorem hostDecryptInvertsEncrypt : Obligations.HostDecryptInvertsEncrypt := by
  intro policy s text key rounds hinv hs htext hkey hlen hkpos hn hk hr
  obtain ⟨⟨⟨-, hcap⟩, -⟩, -, -⟩ := hinv
  have hpos : 0 < text.length := by omega
  have hcheck := checkCall_eq_ok hr hn hk hpos
  have hrounds := ofInt_toNat hr
  obtain ⟨t, u, c, henc, htcap, hc, hdec⟩ := exists_runCall_enc_dec
    (p := text.map (BitVec.ofNat 8)) (k := key.map (BitVec.ofNat 8)) (n := BitVec.ofInt 16 rounds)
    hs hcap (by simpa) (by simpa) (by simpa) (by simpa) (by simp only [List.length_map]; omega)
  rw [List.length_map] at hc
  refine ⟨t, u, bytesToHex c, hostEncrypt_of_runCall policy hcheck htext hkey henc,
    by rw [bytesToHex_length, hc], ?_⟩
  rw [hostDecrypt_of_runCall (by rwa [htcap, hc]) hkey hdec, bytesToText_map_ofNat htext]

end Sys2Proof.Machine
end

section
/-! The port of an idle and of a busy engine, and Reset (70_reset_and_hazards.md R200, R207; 60_exceptions.md
R192). -/

namespace Sys2Proof.Machine

variable {s t : State}

theorem microStep_idle (hs : s.seq = .idle) : microStep s = .next s := by
  simp only [microStep, hs]

theorem step_of_port_reset {rest : List PortEvent} (hp : s.port = .reset :: rest) :
    step s = .next (s.withPort rest).resetEvent := by
  simp only [step, portStep, hp]

/-- A busy engine goes on with its command when a command word waits (70_reset_and_hazards.md R207). -/
theorem step_of_busy {cw : CmdWord} {rest : List PortEvent} (hs : s.seq ≠ .idle)
    (hp : s.port = .command cw :: rest ∨ s.port = .sequenced cw :: rest) : step s = microStep s := by
  rcases hp with hp | hp
  · simp only [step, portStep, hp, if_neg hs]
  · simp only [step, portStep, hp, if_neg hs]

theorem OutcomeFrom.port_eq (h : OutcomeFrom s (.next t)) : t.port = s.port := by
  cases h with
  | ends | goesOn => rfl

/-- Settles O11: the Reset event is taken and acts whatever the engine was doing. -/
theorem resetEventClearsEngine : Obligations.ResetEventClearsEngine := fun _ _ hp =>
  ⟨_, step_of_port_reset hp, rfl, rfl, rfl, rfl, rfl, rfl, rfl⟩

/-- Settles O13: with or without a quiet event the step is a micro-operation, and an idle engine has none. -/
theorem idleEngineKeepsState : Obligations.IdleEngineKeepsState := fun s hs =>
  ⟨fun hp => (step_of_port_nil hp).trans (microStep_idle hs),
    fun rest hp => (step_of_port_quiet hp).trans (microStep_idle (s := s.withPort rest) hs)⟩

/-- Settles O14: the step of a busy engine is a micro-operation, and none of them writes the port. -/
theorem commandsWaitForTheEngine : Obligations.CommandsWaitForTheEngine := by
  intro s t cw rest hs hp h
  have ho : OutcomeFrom s (microStep s) := outcomeFrom_microStep s
  rw [← step_of_busy hs hp, h] at ho
  exact ho.port_eq

end Sys2Proof.Machine
end

section
/-! How a command ends: by the fault table (60_exceptions.md R182, R183), or with `ERR` as it was
(40_buffer_access.md R80), which CLRERR alone clears. -/

namespace Sys2Proof.Machine

variable {s t : State} {o o' : Result} {i : Instr} {e e' err : ErrCode}

/-- The command that starts from `s` ends with the code `e`, and leaves `err` in `ERR` if it completes. -/
inductive EndsWithCode (s : State) (err : ErrCode) : ErrCode → Result → Prop
  | completes (S K : List Byte) (d : Half) :
      EndsWithCode s err .ok (.next (s.endsWith S K err { err := .ok, data := d }))
  | faults (e : ErrCode) (he : e ≠ .ok) : EndsWithCode s err e (.next (s.faultsWith e))

/-- `ERR` after an instruction that raises no exception. -/
def errOnCompletion (i : Instr) (s : State) : ErrCode :=
  match i with
  | .clrerr => .ok
  | _ => s.err

theorem errOnCompletion_of_ne (hi : i ≠ .clrerr) (s : State) : errOnCompletion i s = s.err := by
  cases i with
  | clrerr => exact absurd rfl hi
  | _ => rfl

/-! ### The checks -/

theorem endsWithCode_ite {p : Prop} [Decidable p] (h : EndsWithCode s err e o)
    (h' : EndsWithCode s err e' o') :
    EndsWithCode s err (if p then e else e') (if p then o else o') := by
  split
  · exact h
  · exact h'

theorem endsWithCode_needState (h : EndsWithCode s err e o) :
    EndsWithCode s err (if s.LEN = 0 then .emptyState else e) (needState s o) :=
  endsWithCode_ite (.faults _ (by decide)) h

theorem endsWithCode_needKey (h : EndsWithCode s err e o) :
    EndsWithCode s err (if s.KLEN = 0 then .emptyKey else e) (needKey s o) :=
  endsWithCode_ite (.faults _ (by decide)) h

/-- RDS: the index is in range exactly below `LEN`. -/
theorem endsWithCode_execRds (a : Half) (s : State) :
    EndsWithCode s s.err (if a.toNat ≥ s.LEN then .range else .ok) (execRds a s) := by
  split
  · next h => exact execRds_of_le h ▸ .faults _ (by decide)
  · next h => exact execRds_of_lt (Nat.not_le.1 h) ▸ .completes _ _ _

/-- GETMC: the index is in range exactly below `NMC`. -/
theorem endsWithCode_exec_getmc (j : Half) (s : State) :
    EndsWithCode s s.err (if j.toNat ≥ 2 * s.KLEN then .range else .ok) (exec (.getmc j) s) := by
  split
  · next h => exact exec_getmc_of_le h ▸ .faults _ (by decide)
  · next h =>
    have hj : j.toNat / 2 < s.K.length := Nat.div_lt_of_lt_mul (Nat.not_le.1 h)
    exact exec_getmc_of_lt hj ▸ .completes _ _ _

/-! ### Every command -/

/-- The checks of each command are the conditions of its rows in the table, in the table's order. -/
theorem endsWithCode_exec (hi : isCommand i = true) (s : State) :
    EndsWithCode s (errOnCompletion i s) (expectedError i s) (exec i s) := by
  cases i with
  | nop | clrs | clrk | getlen | getklen | geterr | clrerr | rotr | rotl | mix | rmix =>
    exact .completes _ _ _
  | pushs | pushk => exact endsWithCode_ite (.faults _ (by decide)) (.completes _ _ _)
  | rds a => exact endsWithCode_execRds a s
  | getmc j => exact endsWithCode_exec_getmc j s
  | getrk =>
    exact endsWithCode_needKey (endsWithCode_ite (.faults _ (by decide)) (.completes _ _ _))
  | swap | rots | urots | move | rmove | getshift => exact endsWithCode_needState (.completes _ _ _)
  | diff => exact endsWithCode_needKey (.completes _ _ _)
  | rndf | rndr | enc | dec =>
    exact endsWithCode_needState (endsWithCode_needKey (.completes _ _ _))
  | mc0 | mc1 | mc2 | mc3 | mc4 | mc5 | mc6 | mc7 | mc8 | mc9 | mc10 | mc11 | mc12 | mc13 | mc14
  | mc15 => cases hi

theorem EndsWithCode.response_err {r : Response} (h : EndsWithCode s err e (.next t))
    (hout : t.out = s.out ++ [r]) : r.err = e := by
  cases h with
  | completes | faults =>
    obtain rfl := List.singleton_inj.1 (List.append_cancel_left hout)
    rfl

/-- Settles O49: every command ends with the code of the table, and a word of no row with
`ERR_ILLEGAL`. -/
theorem faultCodesFollowTable : Obligations.FaultCodesFollowTable := by
  constructor
  · intro i s t r hi h hout
    have hend := endsWithCode_exec hi s
    rw [h] at hend
    exact hend.response_err hout
  · intro cw s hw
    exact ⟨_, runCommand_of_not_wellFormed hw, rfl⟩

end Sys2Proof.Machine
end

section
/-! What a fault changes (60_exceptions.md R184), when `ERR` changes (R186, 10_state.md R24), and what
discards buffer contents (70_reset_and_hazards.md R201). -/

namespace Sys2Proof.Machine

variable {s t : State} {o : Result} {i : Instr} {e err : ErrCode}

/-! ### The sequencer -/

/-- What follows a micro-operation that left the buffers of `s`: another place in the sequence, or the end
of the command without a fault. -/
inductive Continues (s : State) : State → Prop
  | goesOn (q : Sequencer) : Continues s (s.withSeq q)
  | ends : Continues s (s.respond 0)

/-- The results that leave the key and `LEN` as they are and write `ERR` only by a fault: those of every
micro-operation, and those of a command word that is rejected or only starts. -/
inductive SequencerEffect (s : State) : Result → Prop
  | continues {t : State} (S : List Byte) (hS : S.length = s.S.length)
      (h : Continues (s.withS S) t) : SequencerEffect s (.next t)
  | faults (e : ErrCode) (he : e ≠ .ok) : SequencerEffect s (.next (s.faultsWith e))
  | stops (f : Fault) : SequencerEffect s (.fault f)

theorem continues_afterMove (s : State) (m : Macro) (r j : Nat) : Continues s (afterMove s m r j) :=
  afterMove_eq s m r j ▸ .goesOn _

theorem continues_afterRot (s : State) (m : Macro) : Continues s (afterRot s m) := by
  cases m with
  | enc rounds =>
    unfold afterRot
    dsimp only
    split
    · exact .goesOn _
    · exact .ends
  | rndf | rndr | dec => exact .ends

theorem continues_afterMix (s : State) (m : Macro) (r : Nat) : Continues s (afterMix s m r) := by
  cases m with
  | enc rounds =>
    unfold afterMix
    dsimp only
    split
    · exact .goesOn _
    · exact .ends
  | rndf | rndr | dec => exact .ends

theorem continues_afterRmove (s : State) (m : Macro) (r j : Nat) :
    Continues s (afterRmove s m r j) := by
  cases j with
  | succ j => exact .goesOn _
  | zero =>
    cases m with
    | dec rounds => exact afterRmove_zero_dec s rounds r ▸ .goesOn _
    | rndf | rndr | enc => exact .ends

theorem sequencerEffect_needState (h : SequencerEffect s o) : SequencerEffect s (needState s o) := by
  unfold needState
  split
  · exact .faults _ (by decide)
  · exact h

theorem sequencerEffect_needKey (h : SequencerEffect s o) : SequencerEffect s (needKey s o) := by
  unfold needKey
  split
  · exact .faults _ (by decide)
  · exact h

theorem sequencerEffect_execMoveCode (c : Code) (s : State) : SequencerEffect s (execMoveCode c s) := by
  unfold execMoveCode
  split
  · exact sequencerEffect_needState (.continues _ (applyMove_length ..) (continues_afterMove ..))
  · exact sequencerEffect_needState (.continues _ (reverseMove_length ..) (continues_afterRmove ..))
  · exact .stops _

theorem sequencerEffect_microDiff (s : State) (r : Nat) (next : Sequencer) :
    SequencerEffect s (microDiff s r next) :=
  sequencerEffect_needKey (.continues _ (diffuse_roundKey_length ..) (.goesOn _))

theorem sequencerEffect_microStep (s : State) : SequencerEffect s (microStep s) := by
  unfold microStep
  split
  · exact .continues s.S rfl (.goesOn s.seq)
  · next m phase r j _ =>
    cases phase with
    | rot =>
      exact sequencerEffect_needState
        (.continues _ (rotateState_length ..) (continues_afterRot _ m))
    | move | rmove =>
      dsimp only
      split
      · next c _ => exact exec_decodeMoveCode c s ▸ sequencerEffect_execMoveCode c s
      · exact .stops _
    | diff | rdiff => exact sequencerEffect_microDiff s r _
    | mix => exact .continues _ (mix_length _) (continues_afterMix _ m r)
    | rmix => exact .continues _ (reverseMix_length _) (.goesOn _)
    | unrot => exact sequencerEffect_needState (.continues _ (unrotateState_length ..) .ends)

/-- An instruction that is no command of the port is a MoveCode. -/
theorem sequencerEffect_exec (hi : isCommand i = false) (s : State) :
    SequencerEffect s (exec i s) := by
  cases i with
  | mc0 | mc1 | mc2 | mc3 | mc4 | mc5 | mc6 | mc7 | mc8 | mc9 | mc10 | mc11 | mc12 | mc13 | mc14
  | mc15 => exact sequencerEffect_execMoveCode _ s
  | _ => cases hi

/-- Everything a step can do: the Reset event, an effect of the sequencer, or the instruction that the
next command word encodes. -/
theorem step_effect (s : State) :
    (∃ rest, s.port = .reset :: rest ∧ step s = .next (s.withPort rest).resetEvent) ∨
    (∃ p, SequencerEffect (s.withPort p) (step s)) ∨
    ∃ cw rest i, (s.port = .command cw :: rest ∨ s.port = .sequenced cw :: rest) ∧
      decode cw = .ok i ∧ step s = exec i (s.withPort rest) := by
  obtain ⟨_, h⟩ | ⟨rest, hp, h⟩ | ⟨rest, _, h⟩ | ⟨cw, rest, hp, _, h⟩ | ⟨cw, rest, hp, _, h⟩ |
    ⟨_, _, _, _, h⟩ := step_cases s
  · exact .inr (.inl ⟨s.port, h ▸ sequencerEffect_microStep s⟩)
  · exact .inl ⟨rest, hp, h⟩
  · exact .inr (.inl ⟨rest, h ▸ sequencerEffect_microStep _⟩)
  · cases hd : decode cw with
    | ok i => exact .inr (.inr ⟨cw, rest, i, .inl hp, hd, h.trans (runCommand_of_decode hd)⟩)
    | error e =>
      have hr : runCommand cw (s.withPort rest) = trap (s.withPort rest) .illegal := by
        simp only [runCommand, hd]
      exact .inr (.inl ⟨rest, h.trans hr ▸ .faults _ (by decide)⟩)
  · obtain ⟨_, _, hr⟩ | ⟨_, q, _, _, hr⟩ | ⟨i, hd, _, hr⟩ := startCommand_eq cw (s.withPort rest)
    · exact .inr (.inl ⟨rest, h.trans hr ▸ .faults _ (by decide)⟩)
    · exact .inr (.inl ⟨rest, h.trans hr ▸ sequencerEffect_needState
        (sequencerEffect_needKey (.continues s.S rfl (.goesOn q)))⟩)
    · exact .inr (.inr ⟨cw, rest, i, .inr hp, hd, h.trans hr⟩)
  · exact .inr (.inl ⟨s.port, h ▸ sequencerEffect_microStep s⟩)

theorem SequencerEffect.keeps (h : SequencerEffect s (.next t)) :
    t.LEN = s.LEN ∧ t.KLEN = s.KLEN ∧ t.port = s.port := by
  cases h with
  | continues S hS h => cases h with
    | goesOn | ends => exact ⟨hS, rfl, rfl⟩
  | faults => exact ⟨rfl, rfl, rfl⟩

/-! ### Precise faults (R184) -/

/-- From `s` to `t` a response with an error came with the whole effect of a fault, and no other. -/
def FaultIsPrecise (s t : State) : Prop :=
  ∀ r : Response, t.out = s.out ++ [r] → r.err ≠ .ok → t = s.faultsWith r.err

/-- A state without a new response answered no fault. -/
theorem faultIsPrecise_of_out_eq (h : t.out = s.out) : FaultIsPrecise s t := by
  intro r hout _
  rw [h] at hout
  simp at hout

theorem faultIsPrecise_completes (S K : List Byte) (err : ErrCode) (d : Half) :
    FaultIsPrecise s (s.endsWith S K err { err := .ok, data := d }) := by
  intro r hout hr
  obtain rfl := List.singleton_inj.1 (List.append_cancel_left hout)
  exact absurd rfl hr

theorem faultIsPrecise_faultsWith (s : State) (e : ErrCode) : FaultIsPrecise s (s.faultsWith e) := by
  intro r hout _
  obtain rfl := List.singleton_inj.1 (List.append_cancel_left hout)
  rfl

theorem EndsWithCode.faultIsPrecise (h : EndsWithCode s err e (.next t)) : FaultIsPrecise s t := by
  cases h with
  | completes => exact faultIsPrecise_completes _ _ _ _
  | faults => exact faultIsPrecise_faultsWith s e

theorem SequencerEffect.faultIsPrecise (h : SequencerEffect s (.next t)) : FaultIsPrecise s t := by
  cases h with
  | continues S _ h => cases h with
    | goesOn => exact faultIsPrecise_of_out_eq rfl
    | ends => exact faultIsPrecise_completes _ _ _ _
  | faults e => exact faultIsPrecise_faultsWith s e

theorem faultIsPrecise_exec (h : exec i s = .next t) : FaultIsPrecise s t := by
  cases hi : isCommand i with
  | true => exact (h ▸ endsWithCode_exec hi s).faultIsPrecise
  | false => exact (h ▸ sequencerEffect_exec hi s).faultIsPrecise

theorem exec_port (h : exec i s = .next t) : t.port = s.port :=
  (h ▸ outcomeFrom_exec i s : OutcomeFrom s (.next t)).port_eq

/-- A step takes at most one event from the port; otherwise its faults are those of an instruction or of
the sequencer. -/
theorem faultIsPrecise_step (h : step s = .next t) : FaultIsPrecise (s.withPort t.port) t := by
  obtain ⟨rest, _, hr⟩ | ⟨p, he⟩ | ⟨_, rest, i, _, _, hr⟩ := step_effect s
  · rw [h] at hr
    cases hr
    exact faultIsPrecise_of_out_eq rfl
  · rw [h] at he
    obtain ⟨_, _, hport⟩ := he.keeps
    rw [hport]
    exact he.faultIsPrecise
  · rw [h] at hr
    rw [exec_port hr.symm]
    exact faultIsPrecise_exec hr.symm

/-- Settles O50: every error response comes from `raise`, of a command or of the sequencer. -/
theorem faultsArePrecise : Obligations.FaultsArePrecise :=
  ⟨fun _ _ _ r h => faultIsPrecise_exec h r, fun _ _ r h => faultIsPrecise_step h r⟩

/-! ### The sticky `ERR` (R186) -/

/-- From `s` to `t` an `ERR` that is not 0 stayed, and so did any `ERR` where no error was answered. -/
structure KeepsErr (s t : State) : Prop where
  sticky : s.err ≠ .ok → t.err = s.err
  completed : ∀ r : Response, t.out = s.out ++ [r] → r.err = .ok → t.err = s.err
  silent : t.out = s.out → t.err = s.err

theorem keepsErr_of_err_eq (h : t.err = s.err) : KeepsErr s t :=
  ⟨fun _ => h, fun _ _ _ => h, fun _ => h⟩

theorem keepsErr_faultsWith (he : e ≠ .ok) : KeepsErr s (s.faultsWith e) where
  sticky h := if_neg h
  completed r hout hr := by
    obtain rfl := List.singleton_inj.1 (List.append_cancel_left hout)
    exact absurd hr he
  silent hout := absurd (List.append_right_eq_self.1 hout) (List.cons_ne_nil _ _)

theorem EndsWithCode.keepsErr (h : EndsWithCode s s.err e (.next t)) : KeepsErr s t := by
  cases h with
  | completes => exact keepsErr_of_err_eq rfl
  | faults _ he => exact keepsErr_faultsWith he

theorem SequencerEffect.keepsErr (h : SequencerEffect s (.next t)) : KeepsErr s t := by
  cases h with
  | continues S _ h => cases h with
    | goesOn | ends => exact keepsErr_of_err_eq rfl
  | faults _ he => exact keepsErr_faultsWith he

theorem keepsErr_exec (hne : i ≠ .clrerr) (h : exec i s = .next t) : KeepsErr s t := by
  cases hi : isCommand i with
  | true =>
    have hend := endsWithCode_exec hi s
    rw [errOnCompletion_of_ne hne, h] at hend
    exact hend.keepsErr
  | false => exact (h ▸ sequencerEffect_exec hi s).keepsErr

/-- Settles O51: only CLRERR writes `ERR` when it completes, and a fault latches the first code. -/
theorem errKeepsFirstCode : Obligations.ErrKeepsFirstCode := by
  intro i s t hne h
  obtain ⟨hsticky, hcompleted, hsilent⟩ := keepsErr_exec hne h
  exact ⟨hsticky, hcompleted, hsilent⟩

/-! ### What discards buffer contents and clears `ERR` (70_reset_and_hazards.md R201) -/

theorem ExecEffect.LEN_le (h : ExecEffect s i t) (hclr : i ≠ .clrs) : s.LEN ≤ t.LEN := by
  cases h with
  | answers | clearsK | pushesK => exact le_rfl
  | transforms _ _ _ hS => exact hS.ge
  | clearsS _ hi => exact absurd hi hclr
  | pushesS => exact (List.sublist_append_left ..).length_le
  | moveCode _ _ h => exact (execMoveCode_keeps h).2.ge

theorem ExecEffect.KLEN_le (h : ExecEffect s i t) (hclr : i ≠ .clrk) : s.KLEN ≤ t.KLEN := by
  cases h with
  | answers | transforms | clearsS | pushesS => exact le_rfl
  | clearsK _ hi => exact absurd hi hclr
  | pushesK => exact (List.sublist_append_left ..).length_le
  | moveCode _ _ h => exact (congrArg List.length (execMoveCode_keeps h).1).ge

theorem exec_LEN_fall (h : exec i s = .next t) (hlt : t.LEN < s.LEN) : i = .clrs :=
  not_imp_comm.1 (exec_effect i s t h).LEN_le (Nat.not_le.2 hlt)

theorem exec_KLEN_fall (h : exec i s = .next t) (hlt : t.KLEN < s.KLEN) : i = .clrk :=
  not_imp_comm.1 (exec_effect i s t h).KLEN_le (Nat.not_le.2 hlt)

theorem exec_err_cleared (h : exec i s = .next t) (hs : s.err ≠ .ok) (ht : t.err = .ok) :
    i = .clrerr := by
  by_contra hne
  exact hs (((keepsErr_exec hne h).sticky hs).symm.trans ht)

/-- A presented word that decodes to an instruction is the word that the instruction encodes to. -/
theorem presented_of_decode {p : List PortEvent} {cw cw' : CmdWord} {rest : List PortEvent}
    (hp : p = .command cw :: rest ∨ p = .sequenced cw :: rest) (hd : decode cw = .ok i)
    (hi : encode i = .command cw') :
    ∃ rest, p = .command cw' :: rest ∨ p = .sequenced cw' :: rest := by
  obtain rfl : cw' = cw := Encoding.command.inj (hi.symm.trans (encode_of_decode hd))
  exact ⟨rest, hp⟩

/-- Settles O57: an effect of the sequencer discards nothing, and of the instructions only CLRS shortens the
State, only CLRK the key, and only CLRERR clears `ERR`. -/
theorem onlyResetAndClearsDiscard : Obligations.OnlyResetAndClearsDiscard := by
  intro s t h
  obtain ⟨rest, hp, _⟩ | ⟨p, he⟩ | ⟨cw, rest, i, hp, hd, hr⟩ := step_effect s
  · exact .inl ⟨rest, hp⟩
  · rw [h] at he
    obtain ⟨hL, hK, _⟩ := he.keeps
    exact .inr ⟨fun hlt => absurd hL hlt.ne, fun hlt => absurd hK hlt.ne, fun hs ht =>
      absurd ((he.keepsErr.sticky hs).symm.trans ht) hs⟩
  · rw [h] at hr
    refine .inr ⟨fun hlt => ?_, fun hlt => ?_, fun hs ht => ?_⟩
    · obtain rfl := exec_LEN_fall hr.symm hlt
      exact presented_of_decode hp hd rfl
    · obtain rfl := exec_KLEN_fall hr.symm hlt
      exact presented_of_decode hp hd rfl
    · obtain rfl := exec_err_cleared hr.symm hs ht
      exact presented_of_decode hp hd rfl

end Sys2Proof.Machine
end

section
/-! Progress from every state that meets the invariant (60_exceptions.md R189, 45_orchestrator.md R160), and
the micro-operations left of a command in progress (R158, R159). -/

namespace Sys2Proof.Machine

variable {s t : State} {S : List Byte} {m : Macro} {phase : Phase} {r j n : Nat} {cw : CmdWord}
  {i : Instr}

/-! ### Commands always answer -/

/-- The decoder of command words gives no MoveCode. -/
theorem isCommand_of_decode (h : decode cw = .ok i) : isCommand i = true := by
  simp only [isCommand, encode_of_decode h]

theorem exists_exec_of_decode (h : decode cw = .ok i) (s : State) : ∃ t, exec i s = .next t := by
  obtain ⟨t, _, ht, _, _⟩ := (commandEnds_exec (isCommand_of_decode h) s).answers_once
  exact ⟨t, ht⟩

theorem exists_runCommand (cw : CmdWord) (s : State) : ∃ t, runCommand cw s = .next t := by
  cases hd : decode cw with
  | ok i =>
    rw [runCommand_of_decode hd]
    exact exists_exec_of_decode hd s
  | error e => exact ⟨s.raise .illegal, by simp only [runCommand, hd, trap]⟩

theorem exists_needBoth (s t : State) : ∃ u, needBoth s (.next t) = .next u := by
  unfold needBoth needState needKey
  split
  · exact ⟨_, rfl⟩
  · split <;> exact ⟨_, rfl⟩

theorem exists_startCommand (cw : CmdWord) (s : State) : ∃ t, startCommand cw s = .next t := by
  obtain ⟨_, _, h⟩ | ⟨_, q, _, _, h⟩ | ⟨i, hd, _, h⟩ := startCommand_eq cw s <;> rw [h]
  · exact ⟨_, rfl⟩
  · exact exists_needBoth s _
  · exact exists_exec_of_decode hd s

/-! ### Micro-operations never fail after validation (R160) -/

theorem State.inProgress_self (hs : s.seq = .running m phase r j) :
    s.inProgress s.S m phase r j = s := by
  rw [State.inProgress, ← hs]
  rfl

theorem exists_microStep_inProgress (hS : 0 < S.length) (hK : 0 < s.KLEN)
    (hj : phase = .move ∨ phase = .rmove → j < nmc s.K) :
    ∃ t, microStep (s.inProgress S m phase r j) = .next t := by
  cases phase with
  | rot => exact ⟨_, microStep_rot hS⟩
  | move =>
    obtain ⟨c, hc⟩ := exists_moveCode (hj (.inl rfl))
    exact ⟨_, microStep_move hS hc⟩
  | diff => exact ⟨_, microStep_diff hK⟩
  | mix => exact ⟨_, microStep_mix⟩
  | rmix => exact ⟨_, microStep_rmix⟩
  | rdiff => exact ⟨_, microStep_rdiff hK⟩
  | rmove =>
    obtain ⟨c, hc⟩ := exists_moveCode (hj (.inr rfl))
    exact ⟨_, microStep_rmove hS hc⟩
  | unrot => exact ⟨_, microStep_unrot hS⟩

theorem exists_microStep (hi : s.Inv) : ∃ t, microStep s = .next t := by
  cases hs : s.seq with
  | idle => exact ⟨s, microStep_idle hs⟩
  | running m phase r j =>
    obtain ⟨hL, hK, _, hj⟩ := running_bounds hi hs
    rw [← State.inProgress_self hs]
    exact exists_microStep_inProgress hL hK hj

/-- Settles O55: Reset always acts, every command answers, and the invariant holds what the micro-operations
need: a State, a key and a code index below `NMC`. -/
theorem stepNeverStops : Obligations.StepNeverStops := by
  intro s hi
  obtain ⟨_, h⟩ | ⟨rest, _, h⟩ | ⟨rest, _, h⟩ | ⟨cw, rest, _, _, h⟩ | ⟨cw, rest, _, _, h⟩ |
    ⟨_, _, _, _, h⟩ := step_cases s <;> rw [h]
  · exact exists_microStep hi
  · exact ⟨_, rfl⟩
  · exact exists_microStep (inv_withPort hi rest)
  · exact exists_runCommand cw _
  · exact exists_startCommand cw _
  · exact exists_microStep hi

/-! ### The micro-operations left -/

/-- The micro-operations left of a round of `n` MoveCodes. -/
def leftInRound (phase : Phase) (j n : Nat) : Nat :=
  match phase with
  | .rot | .unrot => 0
  | .move => (n - j) + 2
  | .diff => 2
  | .mix => 1
  | .rmix => n + 2
  | .rdiff => n + 1
  | .rmove => j + 1

/-- The micro-operations of a command after its round `r`. -/
def leftAfterRound (m : Macro) (r n : Nat) : Nat :=
  match m with
  | .rndf | .rndr => 0
  | .enc rounds => (rounds - 1 - r) * (n + 2)
  | .dec _ => r * (n + 2) + 1

theorem remaining_inProgress (hp : phase ≠ .rot ∧ phase ≠ .unrot) :
    (s.inProgress S m phase r j).remaining =
      leftInRound phase j (nmc s.K) + leftAfterRound m r (nmc s.K) := by
  obtain ⟨hrot, hunrot⟩ := hp
  cases phase with
  | rot => exact absurd rfl hrot
  | unrot => exact absurd rfl hunrot
  | move | diff | mix | rmix | rdiff | rmove => cases m <;> rfl

/-- Within a round the micro-operations after it are the same. -/
theorem remaining_sameRound {S' : List Byte} {phase' : Phase} {j' : Nat}
    (hp' : phase' ≠ .rot ∧ phase' ≠ .unrot) (hp : phase ≠ .rot ∧ phase ≠ .unrot)
    (h : leftInRound phase' j' (nmc s.K) + 1 = leftInRound phase j (nmc s.K)) :
    (s.inProgress S' m phase' r j').remaining + 1 = (s.inProgress S m phase r j).remaining := by
  rw [remaining_inProgress hp', remaining_inProgress hp, ← h, Nat.add_right_comm]

/-- The last micro-operation of a round leaves those after the round. -/
theorem remaining_endOfRound (hp : phase ≠ .rot ∧ phase ≠ .unrot)
    (ht : t.remaining = leftAfterRound m r (nmc s.K)) (h : leftInRound phase j (nmc s.K) = 1) :
    t.remaining + 1 = (s.inProgress S m phase r j).remaining := by
  rw [remaining_inProgress hp, ht, h, Nat.add_comm]

/-- Between two rounds of ENC one round is over. -/
theorem leftAfterRound_enc (h : r + 1 < n) (k : Nat) :
    leftAfterRound (.enc n) r k = (k + 2) + leftAfterRound (.enc n) (r + 1) k := by
  have hrounds : n - 1 - r = (n - 1 - (r + 1)) + 1 := by omega
  rw [leftAfterRound, leftAfterRound, hrounds, Nat.succ_mul, Nat.add_comm]

/-- Between two rounds of DEC one round is over. -/
theorem leftAfterRound_dec_succ (n r k : Nat) :
    leftAfterRound (.dec n) (r + 1) k = (k + 2) + leftAfterRound (.dec n) r k := by
  rw [leftAfterRound, leftAfterRound, Nat.succ_mul, Nat.add_comm (r * _), Nat.add_assoc]

/-- After its `ROT` all rounds of ENC are left. -/
theorem remaining_afterRot (ha : m.allows .rot r = true) :
    (afterRot (s.inProgress S m .rot r j) m).remaining + 1 =
      (s.inProgress S m .rot r j).remaining := by
  cases m with
  | rndf | rndr | dec => cases ha
  | enc n =>
    change _ = 1 + n * (nmc s.K + 2)
    rw [Nat.add_comm]
    cases n with
    | zero =>
      rw [Nat.zero_mul]
      rfl
    | succ n =>
      rw [Nat.succ_mul, Nat.add_comm (n * _)]
      rfl

/-- After the `MIX` of a round the rounds that follow it are left. -/
theorem remaining_afterMix (ha : m.allows .mix r = true) :
    (afterMix (s.inProgress S m .mix r j) m r).remaining = leftAfterRound m r (nmc s.K) := by
  cases m with
  | rndr | dec => cases ha
  | rndf => rfl
  | enc n =>
    have hr : r < n := of_decide_eq_true (Bool.and_eq_true_iff.1 ha).1
    obtain rfl | hlt := Nat.eq_or_lt_of_le (Nat.succ_le_of_lt hr)
    · have hlast : r + 1 - 1 - r = 0 := by omega
      rw [afterMix_enc_of_last rfl, leftAfterRound, hlast, Nat.zero_mul]
      rfl
    · rw [afterMix_enc_of_lt hlt, leftAfterRound_enc hlt]
      rfl

/-- After the last move of a reverse round the rounds before it, and `UNROT`, are left. -/
theorem remaining_afterRmove_zero (ha : m.allows .rmove r = true) :
    (afterRmove (s.inProgress S m .rmove r 0) m r 0).remaining = leftAfterRound m r (nmc s.K) := by
  cases m with
  | rndf | enc => cases ha
  | rndr => rfl
  | dec n =>
    cases r with
    | zero =>
      rw [leftAfterRound, Nat.zero_mul]
      rfl
    | succ r =>
      rw [leftAfterRound_dec_succ]
      rfl

/-- Every micro-operation of a validated command is one of those counted. -/
theorem remaining_microStep_inProgress (hS : 0 < S.length) (hK : 0 < s.KLEN)
    (ha : m.allows phase r = true) (hj : phase = .move ∨ phase = .rmove → j < nmc s.K)
    (h : microStep (s.inProgress S m phase r j) = .next t) :
    t.remaining + 1 = (s.inProgress S m phase r j).remaining := by
  cases phase with
  | rot =>
    rw [microStep_rot hS] at h
    cases h
    exact remaining_afterRot ha
  | move =>
    have hj := hj (.inl rfl)
    obtain ⟨c, hc⟩ := exists_moveCode hj
    rw [microStep_move hS hc] at h
    cases h
    obtain hlast | hlt := Nat.eq_or_lt_of_le (Nat.succ_le_of_lt hj)
    · rw [afterMove_of_last hlast]
      exact remaining_sameRound (by decide) (by decide) (by simp only [leftInRound]; omega)
    · rw [afterMove_of_lt hlt]
      exact remaining_sameRound (by decide) (by decide) (by simp only [leftInRound]; omega)
  | diff =>
    rw [microStep_diff hK] at h
    cases h
    exact remaining_sameRound (by decide) (by decide) rfl
  | mix =>
    rw [microStep_mix] at h
    cases h
    exact remaining_endOfRound (by decide) (remaining_afterMix ha) rfl
  | rmix =>
    rw [microStep_rmix] at h
    cases h
    exact remaining_sameRound (by decide) (by decide) rfl
  | rdiff =>
    rw [microStep_rdiff hK] at h
    cases h
    have hn : nmc s.K - 1 + 1 = nmc s.K := Nat.sub_add_cancel (nmc_pos hK)
    exact remaining_sameRound (by decide) (by decide) (congrArg (· + 1) hn)
  | rmove =>
    obtain ⟨c, hc⟩ := exists_moveCode (hj (.inr rfl))
    rw [microStep_rmove hS hc] at h
    cases h
    cases j with
    | zero => exact remaining_endOfRound (by decide) (remaining_afterRmove_zero ha) rfl
    | succ j => exact remaining_sameRound (by decide) (by decide) rfl
  | unrot =>
    rw [microStep_unrot hS] at h
    cases h
    cases m with
    | rndf | rndr | enc => cases ha
    | dec n => rfl

/-- A micro-operation leaves one fewer (45_orchestrator.md R158, R159). -/
theorem remaining_microStep (hi : s.Inv) (hs : s.seq ≠ .idle) (h : microStep s = .next t) :
    t.remaining + 1 = s.remaining := by
  cases hq : s.seq with
  | idle => exact absurd hq hs
  | running m phase r j =>
    obtain ⟨hL, hK, ha, hj⟩ := running_bounds hi hq
    rw [← State.inProgress_self hq] at h ⊢
    exact remaining_microStep_inProgress hL hK ha hj h

/-- A command that may be in its phase has a micro-operation left. -/
theorem remaining_pos (ha : m.allows phase r = true) : 0 < (s.inProgress S m phase r j).remaining := by
  cases phase with
  | rot =>
    cases m with
    | rndf | rndr | dec => cases ha
    | enc => exact Nat.add_pos_left Nat.one_pos _
  | unrot =>
    cases m with
    | rndf | rndr | enc => cases ha
    | dec => exact Nat.one_pos
  | move | diff | mix | rmix | rdiff | rmove =>
    rw [remaining_inProgress (by decide)]
    exact Nat.add_pos_left (Nat.succ_pos _) _

theorem seq_eq_idle_of_remaining (hi : s.Inv) (h : s.remaining = 0) : s.seq = .idle := by
  cases hq : s.seq with
  | idle => rfl
  | running m phase r j =>
    obtain ⟨_, _, ha, _⟩ := running_bounds hi hq
    rw [← State.inProgress_self hq] at h
    exact absurd h (remaining_pos ha).ne'

/-- The step of a busy engine is a micro-operation, with or without a quiet event, unless Reset is next. -/
theorem step_eq_microStep_of_busy (hs : s.seq ≠ .idle) (hr : ∀ rest, s.port ≠ .reset :: rest) :
    ∃ p, step s = microStep (s.withPort p) := by
  obtain ⟨_, h⟩ | ⟨rest, hp, _⟩ | ⟨rest, _, h⟩ | ⟨_, _, _, hidle, _⟩ | ⟨_, _, _, hidle, _⟩ |
    ⟨_, _, _, _, h⟩ := step_cases s
  · exact ⟨s.port, h⟩
  · exact absurd hp (hr rest)
  · exact ⟨rest, h⟩
  · exact absurd hidle hs
  · exact absurd hidle hs
  · exact ⟨s.port, h⟩

/-- Settles O56: the step is a micro-operation of the count, and the invariant, which it keeps, allows no
phase in which none is left. -/
theorem runningCommandTerminates : Obligations.RunningCommandTerminates := by
  intro s t hi hs hr h
  obtain ⟨p, hstep⟩ := step_eq_microStep_of_busy hs hr
  exact ⟨remaining_microStep (s := s.withPort p) (inv_withPort hi p) hs (hstep.symm.trans h),
    seq_eq_idle_of_remaining (inv_step hi t h)⟩

end Sys2Proof.Machine
end
